-- ==== Sys2Proof/Word.lean ====
section
/-! DEFINITION. The value types of DPC-1 (00_scope.md R5): bytes, 32-bit words, 64-bit counters, blocks, Word Arrays
and the four lanes of a State or a Digest. -/

namespace Sys2Proof

/-- A byte: 8 bits, unsigned (R5). -/
abbrev Byte := BitVec 8

/-- A word or lane: 32 bits, unsigned (R5). Addition and multiplication wrap mod 2^32 (R9). -/
abbrev Word := BitVec 32

/-- A 64-bit quantity: LEN, ABSCNT, T (R7). Arithmetic is mod 2^64 (R9). -/
abbrev DWord := BitVec 64

/-- A block: 64 bytes (R5). -/
abbrev Block := Vector Byte 64

/-- A Word Array: 16 words (R5). -/
abbrev Words := Vector Word 16

/-- Four lanes, lane 0 first: a running State or a Digest, 128 bits (R5). -/
structure Lanes where
  s0 : Word
  s1 : Word
  s2 : Word
  s3 : Word
  deriving DecidableEq, Repr

end Sys2Proof
end

