-- ==== Sys2Proof/Config.lean ====
section
/-! DEFINITION. What an implementation fixes: the configuration record CFG (00_scope.md R6), and the two parameters
no rule depends on, kept without a value. -/

namespace Sys2Proof

/-- The configuration record CFG (R6). A rotate amount is a number, so that a CFG with an amount out of 0..31 can be
written down and refused (WellFormed.lean). -/
structure Cfg where
  /-- IV[0..3], loaded by START. -/
  iv : Lanes
  /-- SA_K, the Stage A constant. -/
  saK : Word
  /-- SA_R1, the Stage A mixing rotation. -/
  saR1 : Nat
  /-- SA_ROT[0..15], the Stage A index-dependent rotations. -/
  saRot : Vector Nat 16
  /-- KF_A, KF_B, the forward sweep's pair. -/
  kfA : Word
  kfB : Word
  /-- KR_A, KR_B, the reverse sweep's pair. -/
  krA : Word
  krB : Word
  /-- CR[0..3], the rotations of the round-mixing chain. -/
  cr : Vector Nat 4
  /-- DS_R2, DS_R3, the rotations of domain separation. -/
  dsR2 : Nat
  dsR3 : Nat
  /-- DS_K2, DS_K3, the constants of domain separation. -/
  dsK2 : Word
  dsK3 : Word
  /-- SR[0..3], the rotations of the scramble. -/
  sr : Vector Nat 4
  /-- FK2, FK3, the Finalizer's odd addends. -/
  fk2 : Word
  fk3 : Word
  /-- M1, M2, the avalanche mixer's odd multipliers. -/
  m1 : Word
  m2 : Word
  deriving DecidableEq, Repr

/-- LATENCY(op, nblocks): the time a command takes (70_reset_and_hazards.md R259). The one property the spec gives is
that it is finite, which the type says; it has no value here, and no step reads it (UNVERIFIED, safe: log entry 10). -/
opaque Config.latency (op : Byte) (nblocks : Nat) : Nat

/-- PLATFORM_BASE: where the core sits in a larger system's address map (20_memory.md R51). Nothing in the spec
depends on it (log entry 11). -/
opaque Config.platformBase : Nat

end Sys2Proof
end

