-- ==== Sys2Proof/Machine/Bits.lean ====
section
/-! DEFINITION. Rotation, halves and byte order (00_scope.md R9, R10; 20_memory.md R52). -/

namespace Sys2Proof.Machine

/-- `rotl32(x, r)`: rotate left by `r mod 32` (R9). -/
def rotl32 (x : Word) (r : Nat) : Word := x.rotateLeft r

/-- `lo32(v) = v[31:0]` (R9). -/
def lo32 (v : DWord) : Word := v.extractLsb' 0 32

/-- `hi32(v) = v[63:32]` (R9). -/
def hi32 (v : DWord) : Word := v.extractLsb' 32 32

/-- `be32(b0, b1, b2, b3)`: b0 is the most significant byte (R10), `(b0 << 24) | (b1 << 16) | (b2 << 8) | b3`
(41_word_extractor.md R120). -/
def be32 (b0 b1 b2 b3 : Byte) : Word :=
  b0.setWidth 32 <<< 24 ||| b1.setWidth 32 <<< 16 ||| b2.setWidth 32 <<< 8 ||| b3.setWidth 32

/-- `be64bytes(v)`: the 8 bytes of v, most significant byte first (R10). -/
def be64bytes (v : DWord) : List Byte :=
  [v.extractLsb' 56 8, v.extractLsb' 48 8, v.extractLsb' 40 8, v.extractLsb' 32 8,
    v.extractLsb' 24 8, v.extractLsb' 16 8, v.extractLsb' 8 8, v.extractLsb' 0 8]

end Sys2Proof.Machine
end

