-- ==== Sys2Proof/Machine/Compressor.lean ====
section
/-! DEFINITION. The Block Compressor (43_block_compressor.md R150-R159). -/

namespace Sys2Proof.Machine

/-- The lane rotation at the end of a group: new lane j is old lane (j+1) mod 4 (R152). -/
def laneShuffle (s : Lanes) : Lanes := ⟨s.s1, s.s2, s.s3, s.s0⟩

/-- `RoundMix(S, m, Ka, Kb)`: the add-xor-rotate chain over lanes 0..3, each lane reading its updated predecessor
(lane 0 reads the input lane 3), then the shuffle (R151). -/
def roundMix (c : Cfg) (s m : Lanes) (ka kb : Word) : Lanes :=
  let a0 := rotl32 ((s.s0 + m.s0 + ka) ^^^ (s.s3 + kb)) c.cr[0]
  let a1 := rotl32 ((s.s1 + m.s1 + ka) ^^^ (a0 + kb)) c.cr[1]
  let a2 := rotl32 ((s.s2 + m.s2 + ka) ^^^ (a1 + kb)) c.cr[2]
  let a3 := rotl32 ((s.s3 + m.s3 + ka) ^^^ (a2 + kb)) c.cr[3]
  laneShuffle ⟨a0, a1, a2, a3⟩

/-- Group g of the schedule: words 4g..4g+3 in increasing order (R153). -/
def wordGroup (x : Words) (g : Fin 4) : Lanes :=
  ⟨x[4 * g.val], x[4 * g.val + 1], x[4 * g.val + 2], x[4 * g.val + 3]⟩

/-- The forward sweep: groups 0, 1, 2, 3 with the pair (KF_A, KF_B) (R153). -/
def forwardSweep (c : Cfg) (s : Lanes) (x : Words) : Lanes :=
  let s := roundMix c s (wordGroup x 0) c.kfA c.kfB
  let s := roundMix c s (wordGroup x 1) c.kfA c.kfB
  let s := roundMix c s (wordGroup x 2) c.kfA c.kfB
  let s := roundMix c s (wordGroup x 3) c.kfA c.kfB
  s

/-- `DomSep(S, idx, T)` (R154): lanes 2 and 3 use the new lanes 0 and 1. -/
def domSep (c : Cfg) (s : Lanes) (idx : Word) (t : DWord) : Lanes :=
  let s0 := s.s0 ^^^ idx ^^^ lo32 t
  let s1 := s.s1 ^^^ hi32 t
  let s2 := s.s2 + rotl32 s0 c.dsR2 + c.dsK2
  let s3 := s.s3 + rotl32 s1 c.dsR3 + c.dsK3
  ⟨s0, s1, s2, s3⟩

/-- The reverse sweep: groups 3, 2, 1, 0 with the pair (KR_A, KR_B), the words of a group in increasing order
(R155). -/
def reverseSweep (c : Cfg) (s : Lanes) (x : Words) : Lanes :=
  let s := roundMix c s (wordGroup x 3) c.krA c.krB
  let s := roundMix c s (wordGroup x 2) c.krA c.krB
  let s := roundMix c s (wordGroup x 1) c.krA c.krB
  let s := roundMix c s (wordGroup x 0) c.krA c.krB
  s

/-- `Scramble(S)`: sequential and in place, so lane 3 sees the new lane 0 (R156). -/
def scramble (c : Cfg) (s : Lanes) : Lanes :=
  let s0 := s.s0 ^^^ rotl32 s.s1 c.sr[0]
  let s1 := s.s1 ^^^ rotl32 s.s2 c.sr[1]
  let s2 := s.s2 ^^^ rotl32 s.s3 c.sr[2]
  let s3 := s.s3 ^^^ rotl32 s0 c.sr[3]
  ⟨s0, s1, s2, s3⟩

/-- `Compress(S, X, idx, T)` (R158). -/
def compress (c : Cfg) (s : Lanes) (x : Words) (idx : Word) (t : DWord) : Lanes :=
  scramble c (reverseSweep c (domSep c (forwardSweep c s x) idx t) x)

end Sys2Proof.Machine
end

