-- ==== Sys2Proof/Machine/Extractor.lean ====
section
/-! DEFINITION. The Word Extractor (41_word_extractor.md R120). -/

namespace Sys2Proof.Machine

/-- `Extract(blk)`: word i is bytes 4i..4i+3, big-endian (R120). -/
def extract (blk : Block) : Words :=
  Vector.ofFn fun i => be32 blk[4 * i.val] blk[4 * i.val + 1] blk[4 * i.val + 2] blk[4 * i.val + 3]

end Sys2Proof.Machine
end

