-- ==== Sys2Proof/Machine/Finalizer.lean ====
section
/-! DEFINITION. The Finalizer (44_finalizer.md R170-R175). -/

namespace Sys2Proof.Machine

/-- `Aval(h)`, the per-lane avalanche mixer (R171). -/
def aval (c : Cfg) (h : Word) : Word :=
  let h := h ^^^ (h >>> 16)
  let h := h * c.m1
  let h := h ^^^ (h >>> 13)
  let h := h * c.m2
  h ^^^ (h >>> 16)

/-- `Fold(S, T)`, step 1 (R172). -/
def fold (c : Cfg) (s : Lanes) (t : DWord) : Lanes :=
  ⟨s.s0 ^^^ lo32 t, s.s1 ^^^ hi32 t, s.s2 + c.fk2, s.s3 + c.fk3⟩

/-- Step 2: each lane through `Aval` independently (R174). -/
def avalLanes (c : Cfg) (s : Lanes) : Lanes :=
  ⟨aval c s.s0, aval c s.s1, aval c s.s2, aval c s.s3⟩

/-- The XOR of the four lanes (R173). -/
def lanesXor (f : Lanes) : Word := f.s0 ^^^ f.s1 ^^^ f.s2 ^^^ f.s3

/-- The cross-lane combine, step 3: X is computed once, from the step-2 lanes, and lane j rotates it by
(3, 11, 17, 23)[j] (R173). -/
def crossLane (c : Cfg) (f : Lanes) : Lanes :=
  let x := lanesXor f
  ⟨aval c (f.s0 ^^^ rotl32 x 3), aval c (f.s1 ^^^ rotl32 x 11),
    aval c (f.s2 ^^^ rotl32 x 17), aval c (f.s3 ^^^ rotl32 x 23)⟩

/-- `Finalize(S, T)` (R174). -/
def finalize (c : Cfg) (s : Lanes) (t : DWord) : Lanes :=
  crossLane c (avalLanes c (fold c s t))

end Sys2Proof.Machine
end

