-- ==== Sys2Proof/Machine/Parameters.lean ====
section
/-! DEFINITION. REF, the spec's reference instantiation of CFG (00_scope.md R6, last column). It is not the
repository's configuration: a claim that fixes CFG to REF is a claim about REF only (70_reset_and_hazards.md R262). -/

namespace Sys2Proof.Machine

/-- REF (R6). -/
def refCfg : Cfg where
  iv := ⟨0x67452301, 0xEFCDAB89, 0x98BADCFE, 0x10325476⟩
  saK := 0x9E3779B9
  saR1 := 7
  saRot := #v[1, 6, 11, 16, 21, 26, 31, 5, 10, 15, 20, 25, 30, 4, 9, 14]
  kfA := 0x243F6A88
  kfB := 0x85A308D3
  krA := 0x13198A2E
  krB := 0x03707344
  cr := #v[5, 9, 13, 18]
  dsR2 := 11
  dsR3 := 19
  dsK2 := 0xA4093822
  dsK3 := 0x299F31D0
  sr := #v[13, 7, 17, 9]
  fk2 := 0x7FEB352D
  fk3 := 0x846CA68B
  m1 := 0x85EBCA6B
  m2 := 0xC2B2AE35

end Sys2Proof.Machine
end

