-- ==== Sys2Proof/Machine/State.lean ====
section
/-! DEFINITION. The state of one DPC-1 instance (10_state.md R20), the reasons a step can stop, and the state after
reset (R39). -/

namespace Sys2Proof.Machine

/-- PHASE, the sequencer's 2-bit field (R24). All four codes are phases. -/
inductive Phase where
  /-- 0: no message in progress. -/
  | idle
  /-- 1: a message is in progress, message bytes are accepted. -/
  | absorb
  /-- 2: the last message's digest is in D. -/
  | done
  /-- 3: an error was raised, only CLR is executed. -/
  | error
  deriving DecidableEq, Repr

/-- The error causes a command can raise (60_exceptions.md R220). -/
inductive ErrCause where
  | illegalOpcode
  | reservedNonzero
  | badPhase
  | overrun
  | underrun
  deriving DecidableEq, Repr

/-- What happens next at the machine's ports (70_reset_and_hazards.md R260). Each event is one step. -/
inductive Event where
  /-- The host puts a command word on the command port (R255). -/
  | present (cw : Word)
  /-- The host takes the held word back, which it must not do (R255). -/
  | withdraw
  /-- The port accepts the held word and the core executes it, one atomic `Step(CW)` (45_commands.md R190). -/
  | accept
  /-- The host reads a register through the read port (10_state.md R35). -/
  | read (index : BitVec 8)
  /-- The host asserts reset (R250). -/
  | reset
  deriving DecidableEq, Repr

/-- The faults. -/
inductive Fault where
  /-- SEGMENT_ALIGN: raised by `segment` on a buffer whose length is no multiple of 64 (40_padder_segmenter.md R105,
  60_exceptions.md R230). No step raises it. Safe: the spec asks for a fault and for no value. -/
  | segmentAlign
  deriving DecidableEq, Repr

/-- The refusals. -/
inductive Refusal where
  /-- An arm of exec that has no meaning yet; no arm is left in this state. Safe: the machine stops. -/
  | notModelled (mnemonic : String)
  /-- Raised by `advance` when CFG breaks a constraint of 00_scope.md R6, which the spec asks the model to refuse.
  Safe: the machine stops (log entry 2). -/
  | invalidConfig
  /-- Raised by `handleEvent` when the host presents a word while one is held, or withdraws a held word: the spec
  gives it no meaning (70_reset_and_hazards.md R255; 93_implementation_defined.md, treatment refuse). Safe: the machine
  stops (log entry 5). -/
  | handshakeBroken
  deriving DecidableEq, Repr

/-- The state. The first twelve fields are the architectural state of R20, each at its width; the last four are the
model's own (log entries 1, 3 and 7). -/
structure State where
  /-- S[0..3], the running State (R21). -/
  lanes : Lanes
  /-- B[0..63], the block buffer (R26). -/
  buf : Block
  /-- BCNT, the bytes held in B (R26). -/
  bcnt : BitVec 6
  /-- LEN, the declared message length in bytes (R27). -/
  len : DWord
  /-- ABSCNT, the message bytes absorbed since the last START (R28). -/
  abscnt : DWord
  /-- BIDX, the index of the next block to compress (R29). -/
  bidx : Word
  /-- TBITS, the latched message bit length T (R30). -/
  tbits : DWord
  /-- PHASE (R24). -/
  phase : Phase
  /-- ERRCODE, 4 bits (R32). -/
  errcode : BitVec 4
  /-- DROP, the sticky flag of a discarded command (R32). -/
  drop : Bool
  /-- ERRINFO, the command word that raised the error (R33). -/
  errinfo : Word
  /-- D[0..3], the digest output (R34). -/
  digest : Lanes
  /-- CFG, fixed while the machine runs (00_scope.md R6). The model's own field (DESIGN CHOICE, log entry 1). -/
  cfg : Cfg
  /-- The word held at the command port and not accepted yet (70_reset_and_hazards.md R255). The model's own field
  (DESIGN CHOICE, log entry 3). -/
  port : Option Word
  /-- What happens next at the ports, in order (R260). The model's own field (DESIGN CHOICE, log entry 3). -/
  agenda : List Event
  /-- The values reads have returned, oldest first (R261). The model's own field (DESIGN CHOICE, log entry 7). -/
  reads : List Word
  deriving DecidableEq, Repr

/-- The machine right after reset (R39, 70_reset_and_hazards.md R250), configured as REF (log entry 1), with nothing
at its ports. -/
def State.reset : State where
  lanes := ⟨0, 0, 0, 0⟩
  buf := Vector.replicate 64 0
  bcnt := 0
  len := 0
  abscnt := 0
  bidx := 0
  tbits := 0
  phase := .idle
  errcode := 0
  drop := false
  errinfo := 0
  digest := ⟨0, 0, 0, 0⟩
  cfg := refCfg
  port := none
  agenda := []
  reads := []

end Sys2Proof.Machine
end

