-- ==== Sys2Proof/Machine/Padder.lean ====
section
/-! DEFINITION. The Padder and the Block Segmenter (40_padder_segmenter.md R100-R106). -/

namespace Sys2Proof.Machine

/-- `T = 8 * L mod 2^64`, the message bit length (R100). -/
def bitLength (len : DWord) : DWord := len * 8

/-- `z = (55 - (L mod 64)) mod 64`, the number of zero bytes (R101). -/
def padZeros (n : Nat) : Nat := (119 - n % 64) % 64

/-- The framing suffix: the marker 0x80, z zero bytes, the bit length as 8 big-endian bytes (R100). -/
def framing (z : Nat) (t : DWord) : List Byte :=
  0x80 :: List.replicate z 0 ++ be64bytes t

/-- `Pad(m)` (R100). -/
def pad (m : List Byte) : List Byte :=
  m ++ framing (padZeros m.length) (bitLength (BitVec.ofNat 64 m.length))

/-- `NB(L) = floor((L + 8) / 64) + 1`, the number of blocks of a padded message of L bytes (R102). -/
def numBlocks (n : Nat) : Nat := (n + 8) / 64 + 1

/-- Block k of a buffer: `p[64k .. 64k+64)` (R104). The default byte is never read where `64k + 64 <= |p|`. -/
def blockAt (p : List Byte) (k : Nat) : Block :=
  Vector.ofFn fun j => p.getD (64 * k + j.val) 0

/-- `Segment(p)` (R104); a buffer whose length is no multiple of 64 is the fault SEGMENT_ALIGN (R105). -/
def segment (p : List Byte) : Except Fault (List Block) :=
  if p.length % 64 = 0 then .ok ((List.range (p.length / 64)).map (blockAt p))
  else .error .segmentAlign

end Sys2Proof.Machine
end

