-- ==== Sys2Proof/Machine/Scheduler.lean ====
section
/-! DEFINITION. The Word Scheduler: Stage A diffusion and Stage B ARX mixing (42_word_scheduler.md R130-R138). -/

namespace Sys2Proof.Machine

/-- The word at an index taken mod 16 (R130). -/
def wordAt (w : Words) (i : Nat) : Word := w[i % 16]'(Nat.mod_lt i (by decide))

/-- `StageA(W)`: every output word reads the input array only (R131). -/
def stageA (c : Cfg) (w : Words) : Words :=
  Vector.ofFn fun i =>
    let u := w[i] ^^^ rotl32 (wordAt w (i.val + 1)) c.saR1
    let v := wordAt w (i.val + 9) + c.saK * BitVec.ofNat 32 (i.val + 1)
    rotl32 (u + v) c.saRot[i]

/-- `QR(x, a, b, c, d)`: the quarter round, in place (R134). -/
def quarterRound (x : Words) (a b c d : Fin 16) : Words :=
  let x := x.set a (x[a] + x[b])
  let x := x.set d (rotl32 (x[d] ^^^ x[a]) 16)
  let x := x.set c (x[c] + x[d])
  let x := x.set b (rotl32 (x[b] ^^^ x[c]) 12)
  let x := x.set a (x[a] + x[b])
  let x := x.set d (rotl32 (x[d] ^^^ x[a]) 8)
  let x := x.set c (x[c] + x[d])
  let x := x.set b (rotl32 (x[b] ^^^ x[c]) 7)
  x

/-- The column round: steps 1-4 of R135. -/
def columnRound (x : Words) : Words :=
  let x := quarterRound x 0 4 8 12
  let x := quarterRound x 1 5 9 13
  let x := quarterRound x 2 6 10 14
  let x := quarterRound x 3 7 11 15
  x

/-- The diagonal round: steps 5-8 of R135. -/
def diagonalRound (x : Words) : Words :=
  let x := quarterRound x 0 5 10 15
  let x := quarterRound x 1 6 11 12
  let x := quarterRound x 2 7 8 13
  let x := quarterRound x 3 4 9 14
  x

/-- One pass: all column steps, then all diagonal steps (R135). -/
def mixPass (x : Words) : Words := diagonalRound (columnRound x)

/-- `StageB(A)`: two full passes and no feed-forward (R136). -/
def stageB (x : Words) : Words := mixPass (mixPass x)

/-- `Schedule(W) = StageB(StageA(W))` (R138). -/
def schedule (c : Cfg) (w : Words) : Words := stageB (stageA c w)

end Sys2Proof.Machine
end

