-- ==== Sys2Proof/Machine/Digest.lean ====
section
/-! DEFINITION. The pipeline over one block, the reference function Digest and its text (44_finalizer.md R176-R178). -/

namespace Sys2Proof.Machine

/-- One block through the extractor, the scheduler and the compressor (R176; 45_commands.md R200). -/
def blockStep (c : Cfg) (t : DWord) (s : Lanes) (idx : Word) (blk : Block) : Lanes :=
  compress c s (schedule c (extract blk)) idx t

/-- Blocks strictly in order, the first one at position k, positions taken mod 2^32 (R176). -/
def compressBlocks (c : Cfg) (t : DWord) : Nat → Lanes → List Block → Lanes
  | _, s, [] => s
  | k, s, blk :: rest => compressBlocks c t (k + 1) (blockStep c t s (BitVec.ofNat 32 k) blk) rest

/-- `Digest(m)` (R176). The segmenter's fault is carried, never a value in its place (R105). R176 is about fewer than
2^64 bytes; for more, the function goes on with wrapped lengths (DESIGN CHOICE, log entry 12). -/
def digestOf (c : Cfg) (m : List Byte) : Except Fault Lanes :=
  match segment (pad m) with
  | .error f => .error f
  | .ok blocks =>
    let t := bitLength (BitVec.ofNat 64 m.length)
    .ok (finalize c (compressBlocks c t 0 c.iv blocks) t)

/-- A word as 8 lowercase hexadecimal digits, most significant nibble first (R177). -/
def wordText (w : Word) : List Char :=
  [28, 24, 20, 16, 12, 8, 4, 0].map fun lo => Nat.digitChar (w.extractLsb' lo 4).toNat

/-- The digest's text: D[0], D[1], D[2], D[3] (R177, a host-side convention). -/
def digestText (d : Lanes) : List Char :=
  wordText d.s0 ++ wordText d.s1 ++ wordText d.s2 ++ wordText d.s3

end Sys2Proof.Machine
end

