-- ==== Sys2Proof/Machine/Flags.lean ====
section
/-! DEFINITION. The codes of PHASE and ERRCODE, the derived flags and the STATUS word (10_state.md R24, R31, R32;
60_exceptions.md R220). -/

namespace Sys2Proof.Machine

/-- The 2-bit code of a phase (R24). -/
def phaseBits : Phase → BitVec 2
  | .idle => 0
  | .absorb => 1
  | .done => 2
  | .error => 3

/-- The 4-bit code of an error cause (R220). -/
def causeBits : ErrCause → BitVec 4
  | .illegalOpcode => 1
  | .reservedNonzero => 2
  | .badPhase => 3
  | .overrun => 4
  | .underrun => 5

/-- DVALID: 1 iff PHASE = DONE (R32). -/
def dvalid (s : State) : Bool := s.phase == .done

/-- ERR: 1 iff PHASE = ERROR (R32). -/
def errFlag (s : State) : Bool := s.phase == .error

/-- `STATUS = {zext_20(0), ERRCODE[3:0], 000b, DROP, ERR, DVALID, PHASE[1:0]}` (R32). -/
def statusWord (s : State) : Word :=
  0#20 ++ s.errcode ++ 0#3 ++ BitVec.ofBool s.drop ++ BitVec.ofBool (errFlag s) ++
    BitVec.ofBool (dvalid s) ++ phaseBits s.phase

/-- ID, the read-only constant "DPC1" (R31). -/
def idWord : Word := 0x44504331

end Sys2Proof.Machine
end

