-- ==== Sys2Proof/Syntax.lean ====
section
/-! DEFINITION. The commands of DPC-1 (30_encoding.md R70-R76): one constructor per row of opcode_table.json, its
operands at exactly the widths of its format, so that every value of the type is a command of the table. -/

namespace Sys2Proof

/-- A decoded command. -/
inductive Instr where
  /-- NOP, format N (45_commands.md R192). -/
  | nop
  /-- START, format N (R193). -/
  | start
  /-- SETLEN k, imm16, format L (R194). -/
  | setlen (k : BitVec 2) (imm16 : BitVec 16)
  /-- ABS1 b0, format B1 (R196). -/
  | abs1 (b0 : Byte)
  /-- ABS2 b0, b1, format B2 (R197). -/
  | abs2 (b0 b1 : Byte)
  /-- ABS3 b0, b1, b2, format B3 (R198). -/
  | abs3 (b0 b1 b2 : Byte)
  /-- FINAL, format N (R201). -/
  | final
  /-- CLR, format N (R202). -/
  | clr
  deriving DecidableEq, Repr

end Sys2Proof
end

