-- ==== Sys2Proof/Decode.lean ====
section
/-! DEFINITION. The decoder, total over all 2^32 words (30_encoding.md R76-R80), the encoder written from the format
tables (R71-R74), and the reading of one row of opcode_table.json. -/

namespace Sys2Proof

/-- What the decoder answers (R80): a command with its fields, or one of the two rejections by name. -/
inductive Decoded where
  /-- (a) One of the eight instructions of R76, with its fields. -/
  | cmd (i : Instr)
  /-- (b) A defined opcode whose reserved bits are not zero (R78). -/
  | reservedNonzero (op : Byte)
  /-- (c) An opcode in 0x08..0xFF (R77). -/
  | illegalOpcode (op : Byte)
  deriving DecidableEq, Repr

/-- `OP = CW[31:24]` (R70). -/
def opcodeField (cw : Word) : Byte := cw.extractLsb' 24 8

/-- `CW[23:16]`: byte B0 of format B3 (R74). -/
def byteField2 (cw : Word) : Byte := cw.extractLsb' 16 8

/-- `CW[15:8]`: byte B0 of format B2, byte B1 of format B3 (R74). -/
def byteField1 (cw : Word) : Byte := cw.extractLsb' 8 8

/-- `CW[7:0]`: always the last message byte (R75). -/
def byteField0 (cw : Word) : Byte := cw.extractLsb' 0 8

/-- `K = CW[17:16]` (R72). -/
def chunkSelectField (cw : Word) : BitVec 2 := cw.extractLsb' 16 2

/-- `IMM16 = CW[15:0]` (R72). -/
def immField (cw : Word) : BitVec 16 := cw.extractLsb' 0 16

/-- A word spells an instruction when `(CW & mask) == match` (R76). -/
def spells (cw pattern mask : Word) : Bool := cw &&& mask == pattern

/-- The decoder (R80): the rows of R76 in order, then R78 for a defined opcode and R77 for the others. -/
def decode (cw : Word) : Decoded :=
  if spells cw 0x00000000 0xFFFFFFFF then .cmd .nop
  else if spells cw 0x01000000 0xFFFFFFFF then .cmd .start
  else if spells cw 0x02000000 0xFFFC0000 then .cmd (.setlen (chunkSelectField cw) (immField cw))
  else if spells cw 0x03000000 0xFFFFFF00 then .cmd (.abs1 (byteField0 cw))
  else if spells cw 0x04000000 0xFFFF0000 then .cmd (.abs2 (byteField1 cw) (byteField0 cw))
  else if spells cw 0x05000000 0xFF000000 then .cmd (.abs3 (byteField2 cw) (byteField1 cw) (byteField0 cw))
  else if spells cw 0x06000000 0xFFFFFFFF then .cmd .final
  else if spells cw 0x07000000 0xFFFFFFFF then .cmd .clr
  else if opcodeField cw ≤ 0x07 then .reservedNonzero (opcodeField cw)
  else .illegalOpcode (opcodeField cw)

/-- The command word of a command: its opcode in CW[31:24], each field at its place, the reserved bits 0 (R71-R74,
and the right column of R82). -/
def encode : Instr → Word
  | .nop => 0x00000000
  | .start => 0x01000000
  | .setlen k imm16 => 0x02000000 ||| k.setWidth 32 <<< 16 ||| imm16.setWidth 32
  | .abs1 b0 => 0x03000000 ||| b0.setWidth 32
  | .abs2 b0 b1 => 0x04000000 ||| b0.setWidth 32 <<< 8 ||| b1.setWidth 32
  | .abs3 b0 b1 b2 => 0x05000000 ||| b0.setWidth 32 <<< 16 ||| b1.setWidth 32 <<< 8 ||| b2.setWidth 32
  | .final => 0x06000000
  | .clr => 0x07000000

/-- The word of an instruction given as `nbits` bits of a row of opcode_table.json: every command is one 32-bit word
(R70, R81), and bits above `nbits` are 0. -/
def tableWord (nbits w : Nat) : Word := BitVec.ofNat 32 (w % 2 ^ nbits)

/-- The command the decoder reads from an instruction whose bits are `w`; none where it refuses the word, and none for
an instruction longer than the one length there is (R81). -/
def decodeTableWord (nbits w : Nat) : Option Instr :=
  if nbits ≤ 32 then
    match decode (tableWord nbits w) with
    | .cmd i => some i
    | .reservedNonzero _ => none
    | .illegalOpcode _ => none
  else none

end Sys2Proof
end

