-- ==== Sys2Proof/Machine/Operands.lean ====
section
/-! DEFINITION. Operand assembly (30_encoding.md R75): the chunk placement of SETLEN and the byte list of ABSn. -/

namespace Sys2Proof.Machine

/-- `LEN[16K+15 : 16K] <- IMM16`, the other 48 bits kept (R75, 45_commands.md R194). -/
def writeChunk (len : DWord) (k : BitVec 2) (imm16 : BitVec 16) : DWord :=
  let shift := 16 * k.toNat
  (len &&& ~~~(0xFFFF#64 <<< shift)) ||| (imm16.setWidth 64 <<< shift)

/-- The message bytes a command carries, in message order: `bytes(CW, n)` for ABSn (R75), none for the others. -/
def messageBytes : Instr → List Byte
  | .nop => []
  | .start => []
  | .setlen _ _ => []
  | .abs1 b0 => [b0]
  | .abs2 b0 b1 => [b0, b1]
  | .abs3 b0 b1 b2 => [b0, b1, b2]
  | .final => []
  | .clr => []

end Sys2Proof.Machine
end

