-- ==== Sys2Proof/Machine/Ops.lean ====
section
/-! DEFINITION. The named operations over the state: error entry and discard, the gate every command goes through, the
block buffer, the read port, clearing and reset. -/

namespace Sys2Proof.Machine

/-- `raise Error(code)`: PHASE, ERRCODE and ERRINFO are written and nothing else (60_exceptions.md R221, R222). This is
the one exception entry of DPC-1; the return from it is `clearState` (R231). -/
def raiseError (cause : ErrCause) (cw : Word) (s : State) : State :=
  { s with phase := .error, errcode := causeBits cause, errinfo := cw }

/-- A word discarded in phase ERROR: DROP is set and nothing else changes (R223). -/
def discard (s : State) : State := { s with drop := true }

/-- The legal-command table of 45_commands.md R191. CLR is legal in every phase. -/
def legalIn : Instr → Phase → Bool
  | .nop, p => p != .error
  | .start, p => p == .idle || p == .done
  | .setlen _ _, p => p == .idle || p == .done
  | .abs1 _, p => p == .absorb
  | .abs2 _ _, p => p == .absorb
  | .abs3 _ _ _, p => p == .absorb
  | .final, p => p == .absorb
  | .clr, _ => true

/-- The checks before a well-formed command executes, in the order of 60_exceptions.md R224: discard in phase ERROR,
then BAD_PHASE. The ERRINFO of an error is the command word (R221), which is the encoding of the command, since each
command has one word (DEDUCED, log entry 8). -/
def whenLegal (i : Instr) (s : State) (body : State → State) : Host.Outcome State Fault Refusal :=
  if legalIn i s.phase then .next (body s)
  else if s.phase = .error then .next (discard s)
  else .next (raiseError .badPhase (encode i) s)

/-- A word that is no command, with the cause the decoder names: discarded in phase ERROR, an error entry in the other
phases (R223, R225, R226). -/
def rejectWord (cause : ErrCause) (cw : Word) (s : State) : State :=
  if s.phase = .error then discard s else raiseError cause cw s

/-- `ProcessBlock()`: the buffered block through the pipeline into S; BIDX advances mod 2^32 and BCNT is 0
(45_commands.md R200). -/
def processBlock (s : State) : State :=
  { s with
    lanes := blockStep s.cfg s.tbits s.lanes s.bidx s.buf
    bidx := s.bidx + 1
    bcnt := 0 }

/-- `BufWrite(BCNT, b)`: `B[BCNT] <- b` (R199). -/
def bufWrite (b : Byte) (s : State) : State :=
  { s with buf := s.buf.set s.bcnt.toNat b (by have := s.bcnt.isLt; omega) }

/-- `AppendByte(b)`: the byte that fills the buffer runs ProcessBlock, so BCNT is never 64 (R199). -/
def appendByte (b : Byte) (s : State) : State :=
  let s := bufWrite b s
  if s.bcnt.toNat + 1 = 64 then processBlock s else { s with bcnt := s.bcnt + 1 }

/-- `AppendByte` over a byte list, in order (R201). -/
def appendBytes : List Byte → State → State
  | [], s => s
  | b :: bs, s => appendBytes bs (appendByte b s)

/-- The loop of ABSORB: each message byte counts in ABSCNT and is appended (R195). -/
def absorbBytes : List Byte → State → State
  | [], s => s
  | b :: bs, s => absorbBytes bs (appendByte b { s with abscnt := s.abscnt + 1 })

/-- `ABSORB(n, bs)`: OVERRUN if the bytes would exceed LEN, compared as unbounded numbers, and then none is appended
(R195, 60_exceptions.md R228). `i` is the command, for ERRINFO. -/
def absorbOrOverrun (i : Instr) (bs : List Byte) (s : State) : State :=
  if s.abscnt.toNat + bs.length > s.len.toNat then raiseError .overrun (encode i) s
  else absorbBytes bs s

/-- START's effect (45_commands.md R193). -/
def beginMessage (s : State) : State :=
  { s with
    lanes := s.cfg.iv
    tbits := bitLength s.len
    abscnt := 0
    bcnt := 0
    bidx := 0
    digest := ⟨0, 0, 0, 0⟩
    phase := .absorb }

/-- FINAL's effect when the declared length is reached: the framing suffix, then the Finalizer into D; S stays as the
last block left it (45_commands.md R201). -/
def finishMessage (s : State) : State :=
  let s := appendBytes (framing (padZeros s.bcnt.toNat) s.tbits) s
  { s with digest := finalize s.cfg s.lanes s.tbits, phase := .done }

/-- FINAL: UNDERRUN if fewer than LEN bytes were absorbed, and then no padding is appended (R201, R229). -/
def finishOrUnderrun (s : State) : State :=
  if s.abscnt.toNat < s.len.toNat then raiseError .underrun (encode .final) s
  else finishMessage s

/-- CLR's effect: every piece of state takes its reset value except LEN (45_commands.md R202). -/
def clearState (s : State) : State :=
  { s with
    lanes := ⟨0, 0, 0, 0⟩
    buf := Vector.replicate 64 0
    bcnt := 0
    abscnt := 0
    bidx := 0
    tbits := 0
    phase := .idle
    errcode := 0
    drop := false
    errinfo := 0
    digest := ⟨0, 0, 0, 0⟩ }

/-- Reset: every piece of architectural state takes its reset value, LEN included, and a word held at the port is
dropped (70_reset_and_hazards.md R250, R251). CFG is no state of the machine; the agenda and the record of reads are
the host's side and stay (log entries 1 and 7). -/
def resetState (s : State) : State :=
  { State.reset with cfg := s.cfg, agenda := s.agenda, reads := s.reads }

/-- `RD(i)`, the read port (10_state.md R35). Indices 13..255 are reserved and read 0. -/
def readPort (i : BitVec 8) (s : State) : Word :=
  match i.toNat with
  | 0 => idWord
  | 1 => statusWord s
  | 2 => s.errinfo
  | 3 => lo32 s.len
  | 4 => hi32 s.len
  | 5 => lo32 s.abscnt
  | 6 => hi32 s.abscnt
  | 7 => s.bidx
  | 8 => s.bcnt.setWidth 32
  | 9 => s.digest.s0
  | 10 => s.digest.s1
  | 11 => s.digest.s2
  | 12 => s.digest.s3
  | _ => 0

end Sys2Proof.Machine
end

