-- ==== Sys2Proof/Machine/Absorb.lean ====
section
/-! DEFINITION. The meanings of ABS1, ABS2 and ABS3 (45_commands.md R195-R198). -/

namespace Sys2Proof.Machine

/-- ABS1 b0: appends one message byte (R196). -/
def execAbs1 (b0 : Byte) (s : State) : Host.Outcome State Fault Refusal :=
  whenLegal (.abs1 b0) s (absorbOrOverrun (.abs1 b0) [b0])

/-- ABS2 b0, b1: appends b0, then b1 (R197). -/
def execAbs2 (b0 b1 : Byte) (s : State) : Host.Outcome State Fault Refusal :=
  whenLegal (.abs2 b0 b1) s (absorbOrOverrun (.abs2 b0 b1) [b0, b1])

/-- ABS3 b0, b1, b2: appends b0, then b1, then b2 (R198). -/
def execAbs3 (b0 b1 b2 : Byte) (s : State) : Host.Outcome State Fault Refusal :=
  whenLegal (.abs3 b0 b1 b2) s (absorbOrOverrun (.abs3 b0 b1 b2) [b0, b1, b2])

end Sys2Proof.Machine
end

