-- ==== Sys2Proof/Machine/Control.lean ====
section
/-! DEFINITION. The meanings of NOP, START, SETLEN and CLR (45_commands.md R192, R193, R194, R202). -/

namespace Sys2Proof.Machine

/-- NOP: no state changes (R192). -/
def execNop (s : State) : Host.Outcome State Fault Refusal :=
  whenLegal .nop s id

/-- START: begins a digest computation for a message of LEN bytes (R193). -/
def execStart (s : State) : Host.Outcome State Fault Refusal :=
  whenLegal .start s beginMessage

/-- SETLEN k, imm16: writes one 16-bit chunk of LEN and nothing else (R194). In DONE that may leave LEN below ABSCNT,
against 10_state.md R25 and R28 (DEDUCED, log entry 9). -/
def execSetlen (k : BitVec 2) (imm16 : BitVec 16) (s : State) : Host.Outcome State Fault Refusal :=
  whenLegal (.setlen k imm16) s fun s => { s with len := writeChunk s.len k imm16 }

/-- CLR: aborts any message, clears every error and returns to IDLE, in every phase (R202). -/
def execClr (s : State) : Host.Outcome State Fault Refusal :=
  whenLegal .clr s clearState

end Sys2Proof.Machine
end

