-- ==== Sys2Proof/Machine/Finish.lean ====
section
/-! DEFINITION. The meaning of FINAL (45_commands.md R201). -/

namespace Sys2Proof.Machine

/-- FINAL: appends the framing suffix, compresses the remaining one or two blocks and runs the Finalizer (R201). -/
def execFinal (s : State) : Host.Outcome State Fault Refusal :=
  whenLegal .final s finishOrUnderrun

end Sys2Proof.Machine
end

