-- ==== Sys2Proof/Machine/Dispatch.lean ====
section
/-! DEFINITION. exec: the meaning of each command (45_commands.md R191). -/

namespace Sys2Proof.Machine

def exec (i : Instr) (s : State) : Host.Outcome State Fault Refusal :=
  match i with
  | .nop => Sys2Proof.Machine.execNop s
  | .start => Sys2Proof.Machine.execStart s
  | .setlen k imm16 => Sys2Proof.Machine.execSetlen k imm16 s
  | .abs1 b0 => Sys2Proof.Machine.execAbs1 b0 s
  | .abs2 b0 b1 => Sys2Proof.Machine.execAbs2 b0 b1 s
  | .abs3 b0 b1 b2 => Sys2Proof.Machine.execAbs3 b0 b1 b2 s
  | .final => Sys2Proof.Machine.execFinal s
  | .clr => Sys2Proof.Machine.execClr s

end Sys2Proof.Machine
end

