-- ==== Sys2Proof/WellFormed.lean ====
section
/-! DEFINITION. The checks on what is handed to the machine: the constraints on CFG (00_scope.md R6), and the operand
ranges of an assembly line (30_encoding.md R82). A decoded command needs none: its operands have exactly the widths of
their fields. -/

namespace Sys2Proof

/-- The IV entries are pairwise distinct (R6). -/
def Cfg.ivDistinct (c : Cfg) : Bool :=
  c.iv.s0 != c.iv.s1 && c.iv.s0 != c.iv.s2 && c.iv.s0 != c.iv.s3 &&
    c.iv.s1 != c.iv.s2 && c.iv.s1 != c.iv.s3 && c.iv.s2 != c.iv.s3

/-- Every rotate amount is in 0..31 (R6). -/
def Cfg.rotatesInRange (c : Cfg) : Bool :=
  (c.saR1 :: c.dsR2 :: c.dsR3 :: c.saRot.toList ++ c.cr.toList ++ c.sr.toList).all (· ≤ 31)

/-- FK2, FK3, M1 and M2 are odd (R6). -/
def Cfg.constantsOdd (c : Cfg) : Bool :=
  [c.fk2, c.fk3, c.m1, c.m2].all (fun k => k.toNat % 2 == 1)

/-- The constraints of R6 on a CFG. -/
def Cfg.ok (c : Cfg) : Bool :=
  c.ivDistinct && c.rotatesInRange && c.constantsOdd

/-- An assembly line as it was written, its operands still numbers of any size (R82). -/
inductive AsmLine where
  | nop
  | start
  | setlen (k imm16 : Nat)
  | abs1 (b0 : Nat)
  | abs2 (b0 b1 : Nat)
  | abs3 (b0 b1 b2 : Nat)
  | final
  | clr
  deriving DecidableEq, Repr

/-- Every operand is in its range: k in 0..3, imm16 in 0..0xFFFF, a byte in 0..0xFF (R82). -/
def AsmLine.wellFormed : AsmLine → Bool
  | .nop => true
  | .start => true
  | .setlen k imm16 => k ≤ 3 && imm16 ≤ 0xFFFF
  | .abs1 b0 => b0 ≤ 0xFF
  | .abs2 b0 b1 => b0 ≤ 0xFF && b1 ≤ 0xFF
  | .abs3 b0 b1 b2 => b0 ≤ 0xFF && b1 ≤ 0xFF && b2 ≤ 0xFF
  | .final => true
  | .clr => true

end Sys2Proof
end

