-- ==== Sys2Proof/Machine/Port.lean ====
section
/-! DEFINITION. The host interface (70_reset_and_hazards.md R260): `Step(CW)`, acceptance at the command port, reads,
reset, and what the machine does next. -/

namespace Sys2Proof.Machine

/-- `Step(CW)` (45_commands.md R191): the decoder first, then the command's meaning or the rejection it names. -/
def stepWord (cw : Word) (s : State) : Host.Outcome State Fault Refusal :=
  match decode cw with
  | .cmd i => exec i s
  | .reservedNonzero _ => .next (rejectWord .reservedNonzero cw s)
  | .illegalOpcode _ => .next (rejectWord .illegalOpcode cw s)

/-- The port accepts the held word and the core executes it to completion, one atomic step (45_commands.md R190). With
no word held the core waits (R250, 60_exceptions.md R240). -/
def acceptWord (s : State) : Host.Outcome State Fault Refusal :=
  match s.port with
  | none => .next s
  | some cw => stepWord cw { s with port := none }

/-- One event at the ports (R260). A second word, or the withdrawal of a held one, breaks the handshake (R255) and is
refused; a withdrawal with no word held does nothing (DESIGN CHOICE, log entry 6). -/
def handleEvent (e : Event) (s : State) : Host.Outcome State Fault Refusal :=
  match e with
  | .present cw =>
    match s.port with
    | none => .next { s with port := some cw }
    | some _ => .refused .handshakeBroken
  | .withdraw =>
    match s.port with
    | none => .next s
    | some _ => .refused .handshakeBroken
  | .accept => acceptWord s
  | .read i => .next { s with reads := s.reads ++ [readPort i s] }
  | .reset => .next (resetState s)

/-- What the machine does next: a CFG that breaks a constraint is refused (00_scope.md R6); the first event of the
agenda happens; with an empty agenda a held word is accepted, since an accepted command and hence the port's wait end
(R259), and with none held the core waits. -/
def advance (s : State) : Host.Outcome State Fault Refusal :=
  if s.cfg.ok then
    match s.agenda with
    | [] => acceptWord s
    | e :: rest => handleEvent e { s with agenda := rest }
  else .refused .invalidConfig

/-- The state in which the word is held at the command port and its acceptance is the next event. -/
def holdWord (cw : Word) (s : State) : State :=
  { s with port := some cw, agenda := .accept :: s.agenda }

end Sys2Proof.Machine
end

