-- ==== Sys2Proof/Machine/Step.lean ====
section
/-! DEFINITION. One step of the machine, and the state in which the next step runs a given word. -/

namespace Sys2Proof.Machine

/-- One step: the next event at the ports, or the acceptance of the held word (Port.lean). -/
def step (s : State) : Host.Outcome State Fault Refusal := advance s

/-- `s` with the instruction of a table row held at the command port, where the machine takes its next command from
(10_state.md R22), and its acceptance due next. -/
def State.withFetchWord (s : State) (nbits w : Nat) : State :=
  holdWord (tableWord nbits w) s

end Sys2Proof.Machine
end

