-- ==== Sys2Proof/Machine/Assembler.lean ====
section
/-! DEFINITION. The assembly syntax (30_encoding.md R82): one command per line, host side. -/

namespace Sys2Proof.Machine

/-- What an assembler makes of a line. -/
inductive Assembled where
  /-- A line with no command on it: blank, or only a comment. -/
  | nothing
  /-- The command word. -/
  | word (cw : Word)
  /-- No command of R82, or an operand out of range: rejected, never truncated. -/
  | rejected
  deriving DecidableEq, Repr

/-- The single quote that encloses a character operand. -/
def quoteChar : Char := Char.ofNat 39

/-- Space and tab. -/
def isBlank (c : Char) : Bool := c == ' ' || c == '\t'

/-- A line without the blanks at its two ends. -/
def trim (l : List Char) : List Char :=
  ((l.dropWhile isBlank).reverse.dropWhile isBlank).reverse

/-- Splits a line at a separator. A character between single quotes separates nothing (DESIGN CHOICE, log entry 13).
`inQuote` counts the characters left of a quoted operand. -/
def splitOutsideQuotes (sep : Char) : Nat → List Char → List (List Char)
  | _, [] => [[]]
  | 0, c :: cs =>
    if c = sep then [] :: splitOutsideQuotes sep 0 cs
    else
      match splitOutsideQuotes sep (if c = quoteChar then 2 else 0) cs with
      | [] => [[c]]
      | h :: t => (c :: h) :: t
  | n + 1, c :: cs =>
    match splitOutsideQuotes sep n cs with
    | [] => [[c]]
    | h :: t => (c :: h) :: t

/-- The line up to its comment, which starts at a semicolon (R82). -/
def withoutComment (l : List Char) : List Char :=
  (splitOutsideQuotes ';' 0 l).headD []

/-- The value of a digit in a base of at most 16. -/
def digitValue (base : Nat) (c : Char) : Option Nat :=
  let n := c.toLower.toNat
  let v := if 48 ≤ n ∧ n ≤ 57 then n - 48 else if 97 ≤ n ∧ n ≤ 102 then n - 87 else 16
  if v < base then some v else none

/-- A nonempty digit string in a base. -/
def digitsValue (base : Nat) (l : List Char) : Option Nat :=
  if l.isEmpty then none
  else l.foldl (fun acc c => acc.bind fun n => (digitValue base c).map fun d => n * base + d) (some 0)

/-- A number: decimal, or hexadecimal after `0x` (R82). -/
def parseNumber (l : List Char) : Option Nat :=
  match l with
  | '0' :: 'x' :: digits => digitsValue 16 digits
  | digits => digitsValue 10 digits

/-- A byte operand: a number, or an ASCII character in single quotes (R82). -/
def parseByte (l : List Char) : Option Nat :=
  match l with
  | [q, c, q'] => if q = quoteChar ∧ q' = quoteChar ∧ c.toNat < 128 then some c.toNat else parseNumber l
  | _ => parseNumber l

/-- The operands of a line as it was written, by mnemonic and number of operands. -/
def parseLine (mnemonic : List Char) (operands : List (List Char)) : Option AsmLine :=
  let name := mnemonic.map Char.toLower
  if name = ['n', 'o', 'p'] ∧ operands = [] then some .nop
  else if name = ['s', 't', 'a', 'r', 't'] ∧ operands = [] then some .start
  else if name = ['f', 'i', 'n', 'a', 'l'] ∧ operands = [] then some .final
  else if name = ['c', 'l', 'r'] ∧ operands = [] then some .clr
  else
    match operands with
    | [a] =>
      if name = ['a', 'b', 's', '1'] then (parseByte a).map .abs1 else none
    | [a, b] =>
      if name = ['s', 'e', 't', 'l', 'e', 'n'] then
        (parseNumber a).bind fun k => (parseNumber b).map (.setlen k)
      else if name = ['a', 'b', 's', '2'] then
        (parseByte a).bind fun b0 => (parseByte b).map (.abs2 b0)
      else none
    | [a, b, c] =>
      if name = ['a', 'b', 's', '3'] then
        (parseByte a).bind fun b0 => (parseByte b).bind fun b1 => (parseByte c).map (.abs3 b0 b1)
      else none
    | _ => none

/-- The command of a line whose operands are in range (R82). -/
def commandOf (l : AsmLine) : Option Instr :=
  if l.wellFormed then
    match l with
    | .nop => some .nop
    | .start => some .start
    | .setlen k imm16 => some (.setlen (BitVec.ofNat 2 k) (BitVec.ofNat 16 imm16))
    | .abs1 b0 => some (.abs1 (BitVec.ofNat 8 b0))
    | .abs2 b0 b1 => some (.abs2 (BitVec.ofNat 8 b0) (BitVec.ofNat 8 b1))
    | .abs3 b0 b1 b2 => some (.abs3 (BitVec.ofNat 8 b0) (BitVec.ofNat 8 b1) (BitVec.ofNat 8 b2))
    | .final => some .final
    | .clr => some .clr
  else none

/-- One line of assembly (R82): the mnemonic first, case-insensitive, then the operands separated by commas. -/
def assemble (line : List Char) : Assembled :=
  let text := trim (withoutComment line)
  let mnemonic := text.takeWhile fun c => !isBlank c
  let rest := trim (text.dropWhile fun c => !isBlank c)
  let operands := if rest.isEmpty then [] else (splitOutsideQuotes ',' 0 rest).map trim
  if text.isEmpty then .nothing
  else
    match (parseLine mnemonic operands).bind commandOf with
    | some i => .word (encode i)
    | none => .rejected

end Sys2Proof.Machine
end

