-- ==== Sys2Proof/Machine/Pseudo.lean ====
section
/-! DEFINITION. The pseudo-instructions (30_encoding.md R83), as the command lists they expand to. -/

namespace Sys2Proof.Machine

/-- `LEN64 v`: all four SETLENs, chunk 0 first (R83). -/
def len64 (v : DWord) : List Instr :=
  [.setlen 0 (v.extractLsb' 0 16), .setlen 1 (v.extractLsb' 16 16),
    .setlen 2 (v.extractLsb' 32 16), .setlen 3 (v.extractLsb' 48 16)]

/-- `ABSORB`: one ABS3 per full triple, then one ABS1 or ABS2 for a remainder; nothing for no bytes (R83). -/
def absorbAll : List Byte → List Instr
  | b0 :: b1 :: b2 :: rest => .abs3 b0 b1 b2 :: absorbAll rest
  | [b0, b1] => [.abs2 b0 b1]
  | [b0] => [.abs1 b0]
  | [] => []

/-- `HASH m`: `LEN64 |m|`, `START`, `ABSORB m`, `FINAL` (R83). LEN64 takes a 64-bit number, and R83 is silent on a
message of 2^64 bytes or more: there the declared length is `|m| mod 2^64` (DESIGN CHOICE, log entry 12). -/
def hashOf (m : List Byte) : List Instr :=
  len64 (BitVec.ofNat 64 m.length) ++ .start :: absorbAll m ++ [.final]

end Sys2Proof.Machine
end

