-- ==== Sys2Proof/Machine/Timing.lean ====
section
/-! DEFINITION. How many blocks a command compresses, and its latency (70_reset_and_hazards.md R259). No step reads
these. -/

namespace Sys2Proof.Machine

/-- `nblocks` of R259: the block compressions a command runs from this state. A command that raises an error or is
discarded runs none (60_exceptions.md R222, R223). -/
def blocksRun (i : Instr) (s : State) : Nat :=
  match i with
  | .nop => 0
  | .start => 0
  | .setlen _ _ => 0
  | .abs1 _ => absorbRuns 1
  | .abs2 _ _ => absorbRuns 2
  | .abs3 _ _ _ => absorbRuns 3
  | .final =>
    if s.phase = .absorb ∧ ¬ s.abscnt.toNat < s.len.toNat then
      (s.bcnt.toNat + 9 + padZeros s.bcnt.toNat) / 64
    else 0
  | .clr => 0
where
  /-- The blocks an ABSn of n bytes fills: its bytes follow the ones already held. -/
  absorbRuns (n : Nat) : Nat :=
    if s.phase = .absorb ∧ ¬ s.abscnt.toNat + n > s.len.toNat then (s.bcnt.toNat + n) / 64 else 0

/-- The time a command takes from this state: `LATENCY(op, nblocks)` (R259). -/
def commandLatency (i : Instr) (s : State) : Nat :=
  Config.latency (opcodeField (encode i)) (blocksRun i s)

end Sys2Proof.Machine
end

