-- ==== Sys2Proof/Safety.lean ====
section
/-! DEFINITION. What claims about DPC-1 are stated in: clean entry, runs and their observation, the invariants of the
state, agreement up to stale bytes, and what a message in progress has done to the state. -/

namespace Sys2Proof

open Sys2Proof.Machine

/-- `Clean(st)`, the clean-entry premise (70_reset_and_hazards.md R254). -/
def Clean (s : State) : Prop :=
  (s.phase = .idle ∨ s.phase = .done) ∧ s.errcode = 0 ∧ s.drop = false

/-- A run succeeded exactly when its end state has ERR = 0 and DROP = 0 (R261). -/
def Succeeded (s : State) : Prop := errFlag s = false ∧ s.drop = false

/-- The interactions a launch may hold: commands and reads, no reset (R261). -/
inductive Interaction where
  | command (cw : Word)
  | read (index : BitVec 8)
  deriving DecidableEq, Repr

/-- The events of an interaction: a command word is presented and then accepted (R255, R260). -/
def Interaction.events : Interaction → List Event
  | .command cw => [.present cw, .accept]
  | .read i => [.read i]

/-- The launch (st0, P) (R261): nothing is held at the port, and P is all that happens. -/
def launch (s : State) (p : List Interaction) : State :=
  { s with port := none, agenda := p.flatMap Interaction.events, reads := [] }

/-- The run of a launch: one step for each of its events (R261). -/
def runLaunch (s : State) (p : List Interaction) : Host.Outcome State Fault Refusal :=
  core.run (p.flatMap Interaction.events).length (launch s p)

/-- The read-visible state: RD(0), RD(1), ..., RD(255) (R261). -/
def readVisible (s : State) : List Word :=
  (List.range 256).map fun i => readPort (BitVec.ofNat 8 i) s

/-- Commands in order, from a state on, each by its meaning; it stops at the first outcome that is no next state. -/
def execAll : List Instr → State → Host.Outcome State Fault Refusal
  | [], s => .next s
  | i :: rest, s =>
    match exec i s with
    | .next t => execAll rest t
    | .fault r => .fault r
    | .refused r => .refused r

/-- The commands that carry message bytes. -/
def isAbsorb : Instr → Bool
  | .nop => false
  | .start => false
  | .setlen _ _ => false
  | .abs1 _ => true
  | .abs2 _ _ => true
  | .abs3 _ _ _ => true
  | .final => false
  | .clr => false

/-- The counters with no message begun (10_state.md R25, phase IDLE). -/
def IdleCounters (s : State) : Prop := s.abscnt = 0 ∧ s.bcnt = 0 ∧ s.bidx = 0

/-- The counters of a message in progress (10_state.md R25, phase ABSORB; R28; R30). -/
def AbsorbCounters (s : State) : Prop :=
  s.abscnt.toNat ≤ s.len.toNat ∧ s.bcnt.toNat = s.abscnt.toNat % 64 ∧
    s.bidx = BitVec.ofNat 32 (s.abscnt.toNat / 64) ∧ s.tbits = bitLength s.len

/-- The counters of a finished message (10_state.md R25, phase DONE). ABSCNT is its whole length, as T latched it (R28,
R30); LEN may be the length of the next one already, since SETLEN is legal in DONE (log entry 9). -/
def DoneCounters (s : State) : Prop :=
  s.bcnt = 0 ∧ s.bidx = BitVec.ofNat 32 (numBlocks s.abscnt.toNat) ∧ s.tbits = bitLength s.abscnt

/-- The counter invariants by phase (10_state.md R25). An error keeps the counters of the phase it was raised in
(60_exceptions.md R221), and ERROR does not say which one that was. -/
def CounterInv (s : State) : Prop :=
  match s.phase with
  | .idle => IdleCounters s
  | .absorb => AbsorbCounters s
  | .done => DoneCounters s
  | .error => IdleCounters s ∨ AbsorbCounters s ∨ DoneCounters s

/-- ABSCNT is within LEN (10_state.md R25, R28). -/
def AbscntWithinLen (s : State) : Prop := s.abscnt.toNat ≤ s.len.toNat

/-- The next step executes a SETLEN in DONE, which declares the length of the next message and is the one command after
which ABSCNT can be above LEN (45_commands.md R194; log entry 9). -/
def SetlenDueInDone (s : State) : Prop :=
  s.phase = .done ∧ (s.agenda = [] ∨ ∃ rest, s.agenda = .accept :: rest) ∧
    ∃ cw k imm16, s.port = some cw ∧ decode cw = .cmd (.setlen k imm16)

/-- The error registers: outside ERROR no code, no captured word, no DROP; in ERROR one of the codes 1 to 5
(60_exceptions.md R220, R221, R231). -/
def ErrorInv (s : State) : Prop :=
  if s.phase = .error then 1 ≤ s.errcode.toNat ∧ s.errcode.toNat ≤ 5
  else s.errcode = 0 ∧ s.errinfo = 0 ∧ s.drop = false

/-- D reads 0 while a message has not begun or is in progress (10_state.md R34, 70_reset_and_hazards.md R256). -/
def DigestInv (s : State) : Prop :=
  s.phase = .idle ∨ s.phase = .absorb → s.digest = ⟨0, 0, 0, 0⟩

/-- The invariant of the state that every step keeps. -/
def StateInv (s : State) : Prop := CounterInv s ∧ ErrorInv s ∧ DigestInv s

/-- Two states agree in everything but the stale bytes of B, those at BCNT and above (10_state.md R26). -/
def SameButStale (s t : State) : Prop :=
  ∃ b : Block, t = { s with buf := b } ∧ ∀ k : Fin 64, k.val < s.bcnt.toNat → b[k] = s.buf[k]

/-- Two states the host cannot tell apart by reading: they agree in all but S, B and TBITS (10_state.md R38). -/
def SameReadable (s t : State) : Prop :=
  ∃ (l : Lanes) (b : Block) (v : DWord), t = { s with lanes := l, buf := b, tbits := v }

/-- A reserved bit of a defined opcode's word is 1, by the list of 60_exceptions.md R226. -/
def ReservedBitSet (cw : Word) : Prop :=
  ((opcodeField cw = 0x00 ∨ opcodeField cw = 0x01 ∨ opcodeField cw = 0x06 ∨ opcodeField cw = 0x07) ∧
      cw.extractLsb' 0 24 ≠ 0) ∨
    (opcodeField cw = 0x02 ∧ cw.extractLsb' 18 6 ≠ 0) ∨
    (opcodeField cw = 0x03 ∧ cw.extractLsb' 8 16 ≠ 0) ∨
    (opcodeField cw = 0x04 ∧ cw.extractLsb' 16 8 ≠ 0)

/-- The block FINAL completes first: the bytes held, the marker, zeros, and the length if it fits
(40_padder_segmenter.md R106). -/
def markerBlock (s : State) : Block :=
  Vector.ofFn fun k : Fin 64 =>
    if k.val < s.bcnt.toNat then s.buf[k]
    else if k.val = s.bcnt.toNat then 0x80
    else if s.bcnt.toNat ≤ 55 ∧ 56 ≤ k.val then (be64bytes s.tbits).getD (k.val - 56) 0
    else 0

/-- The block that holds only zeros and the length (40_padder_segmenter.md R102). -/
def lengthBlock (t : DWord) : Block :=
  Vector.ofFn fun k : Fin 64 => if 56 ≤ k.val then (be64bytes t).getD (k.val - 56) 0 else 0

/-- The message m has been absorbed since START (10_state.md R25, R26; 43_block_compressor.md R159): the counters
count it, S has every full block of it folded in, and B holds the rest. -/
def Absorbed (m : List Byte) (s : State) : Prop :=
  s.phase = .absorb ∧ s.tbits = bitLength s.len ∧ s.abscnt.toNat = m.length ∧ m.length ≤ s.len.toNat ∧
    s.bcnt.toNat = m.length % 64 ∧ s.bidx = BitVec.ofNat 32 (m.length / 64) ∧
    s.lanes = compressBlocks s.cfg s.tbits 0 s.cfg.iv ((List.range (m.length / 64)).map (blockAt m)) ∧
    ∀ k : Fin 64, k.val < m.length % 64 → some s.buf[k] = m[64 * (m.length / 64) + k.val]?

end Sys2Proof
end

