-- ==== Sys2Proof/Certificates/Slice0/Obligations.lean ====
section
/-! DEFINITION. The statements about the model. Each docstring names the rule or the section of spec/ it rests on. -/

open Sys2Proof Sys2Proof.Machine

/-! ### Encoding and decoding -/

/-- Decoding the word of a command gives the command back, with every operand at every value (30_encoding.md,
sections 1 to 3). -/
def Obligations.DecodeOfEncode : Prop := ∀ i : Instr, decode (encode i) = .cmd i

/-- A word that decodes to a command is the word of that command, so each command has one word (30_encoding.md,
section 3). -/
def Obligations.EncodeOfDecoded : Prop := ∀ (cw : Word) (i : Instr), decode cw = .cmd i → encode i = cw

/-- R76: a word spells an instruction when `(CW & mask) == match` of its row. -/
def Obligations.MatchAndMaskOfEveryRow : Prop :=
  ∀ cw : Word,
    (cw &&& 0xFFFFFFFF = 0x00000000 ↔ decode cw = .cmd .nop) ∧
    (cw &&& 0xFFFFFFFF = 0x01000000 ↔ decode cw = .cmd .start) ∧
    (cw &&& 0xFFFC0000 = 0x02000000 ↔ ∃ k imm16, decode cw = .cmd (.setlen k imm16)) ∧
    (cw &&& 0xFFFFFF00 = 0x03000000 ↔ ∃ b0, decode cw = .cmd (.abs1 b0)) ∧
    (cw &&& 0xFFFF0000 = 0x04000000 ↔ ∃ b0 b1, decode cw = .cmd (.abs2 b0 b1)) ∧
    (cw &&& 0xFF000000 = 0x05000000 ↔ ∃ b0 b1 b2, decode cw = .cmd (.abs3 b0 b1 b2)) ∧
    (cw &&& 0xFFFFFFFF = 0x06000000 ↔ decode cw = .cmd .final) ∧
    (cw &&& 0xFFFFFFFF = 0x07000000 ↔ decode cw = .cmd .clr)

/-- The three answers of the decoder, by opcode and reserved bits (30_encoding.md, section 4; an inference the spec
marks as its own). -/
def Obligations.DecoderRejectsByName : Prop :=
  ∀ cw : Word,
    (0x08 ≤ opcodeField cw ↔ decode cw = .illegalOpcode (opcodeField cw)) ∧
    (ReservedBitSet cw ↔ decode cw = .reservedNonzero (opcodeField cw)) ∧
    ((∃ i, decode cw = .cmd i) ↔ opcodeField cw < 0x08 ∧ ¬ ReservedBitSet cw)

/-- Words written out from the formats of 30_encoding.md decode to the commands they stand for. -/
def Obligations.WordsOfTheFormatsDecode : Prop :=
  decode 0x00000000 = .cmd .nop ∧ decode 0x01000000 = .cmd .start ∧
    decode 0x0203ABCD = .cmd (.setlen 3 0xABCD) ∧ decode 0x03000080 = .cmd (.abs1 0x80) ∧
    decode 0x04006869 = .cmd (.abs2 0x68 0x69) ∧ decode 0x05616263 = .cmd (.abs3 0x61 0x62 0x63) ∧
    decode 0x06000000 = .cmd .final ∧ decode 0x07000000 = .cmd .clr

/-- The assembler rejects an operand out of range and truncates none (30_encoding.md, section 6). -/
def Obligations.AssemblerRejectsOutOfRange : Prop :=
  ∀ n0 n1 n2 : Nat,
    (commandOf (.setlen n0 n1) =
      if n0 < 4 ∧ n1 < 65536 then some (.setlen (BitVec.ofNat 2 n0) (BitVec.ofNat 16 n1)) else none) ∧
    (commandOf (.abs1 n0) = if n0 < 256 then some (.abs1 (BitVec.ofNat 8 n0)) else none) ∧
    (commandOf (.abs2 n0 n1) =
      if n0 < 256 ∧ n1 < 256 then some (.abs2 (BitVec.ofNat 8 n0) (BitVec.ofNat 8 n1)) else none) ∧
    (commandOf (.abs3 n0 n1 n2) =
      if n0 < 256 ∧ n1 < 256 ∧ n2 < 256 then
        some (.abs3 (BitVec.ofNat 8 n0) (BitVec.ofNat 8 n1) (BitVec.ofNat 8 n2)) else none)

/-! ### The step and the command ports -/

/-- A held word that decodes to a command is run by its meaning when the port accepts it: the port is free again, the
acceptance leaves the agenda, and nothing else stands around exec (45_commands.md, section 1). That the agenda says
when the port accepts is the model's choice (log entry 3). -/
def Obligations.StepRunsTheDecodedCommand : Prop :=
  ∀ (s : State) (cw : Word) (i : Instr), s.cfg.ok = true → s.port = some cw → decode cw = .cmd i →
    (∀ rest, s.agenda = .accept :: rest → step s = exec i { s with port := none, agenda := rest }) ∧
    (s.agenda = [] → step s = exec i { s with port := none })

/-- A word that is no command is run by Step(CW) too, at its acceptance (45_commands.md, section 1; log entry 3). -/
def Obligations.StepRunsTheHeldWord : Prop :=
  ∀ (s : State) (w : Nat), s.cfg.ok = true → w < 2 ^ 32 →
    step (s.withFetchWord 32 w) = stepWord (BitVec.ofNat 32 w) { s with port := none }

/-- R191: `Step(CW)` and the table of legal commands. -/
def Obligations.StepDispatchAndLegalPhases : Prop :=
  ∀ (cw : Word) (s : State),
    stepWord cw s =
      if s.phase = .error then
        if cw = 0x07000000 then exec .clr s else .next { s with drop := true }
      else
        match decode cw with
        | .illegalOpcode _ => .next { s with phase := .error, errcode := 1, errinfo := cw }
        | .reservedNonzero _ => .next { s with phase := .error, errcode := 2, errinfo := cw }
        | .cmd i =>
          if (match i with
            | .nop => true
            | .start => s.phase == .idle || s.phase == .done
            | .setlen _ _ => s.phase == .idle || s.phase == .done
            | .abs1 _ => s.phase == .absorb
            | .abs2 _ _ => s.phase == .absorb
            | .abs3 _ _ _ => s.phase == .absorb
            | .final => s.phase == .absorb
            | .clr => true) = true
          then exec i s
          else .next { s with phase := .error, errcode := 3, errinfo := cw }

/-- A CFG is refused exactly when it breaks a constraint of 00_scope.md, section 4. -/
def Obligations.InvalidConfigurationIsRefused : Prop :=
  ∀ s : State,
    (step s = .refused .invalidConfig ↔
      ¬ (([s.cfg.iv.s0, s.cfg.iv.s1, s.cfg.iv.s2, s.cfg.iv.s3].Nodup) ∧
        (∀ k ∈ [s.cfg.fk2, s.cfg.fk3, s.cfg.m1, s.cfg.m2], k.getLsbD 0 = true) ∧
        s.cfg.saR1 < 32 ∧ s.cfg.dsR2 < 32 ∧ s.cfg.dsR3 < 32 ∧
        (∀ i : Fin 16, s.cfg.saRot[i] < 32) ∧ (∀ i : Fin 4, s.cfg.cr[i] < 32 ∧ s.cfg.sr[i] < 32)))

/-- No step faults, and the two refusals are a CFG out of its constraints and a broken handshake: a host that presents
a second word or withdraws a held one (70_reset_and_hazards.md, section 5; log entries 2 and 5). -/
def Obligations.StepNeverFaultsAndRefusesOnlyByName : Prop :=
  ∀ s : State,
    (∀ f, step s ≠ .fault f) ∧
    (∀ r, step s = .refused r →
      (r = .invalidConfig ∧ s.cfg.ok = false) ∨
      (r = .handshakeBroken ∧ s.port.isSome ∧
        ∃ rest, s.agenda = .withdraw :: rest ∨ ∃ cw, s.agenda = .present cw :: rest))

/-- A held word is kept by every step until the port accepts it or reset drops it, and it is never replaced
(45_commands.md, section 1; 70_reset_and_hazards.md, sections 1 and 3). -/
def Obligations.HeldWordIsNeverLost : Prop :=
  ∀ (s t : State) (cw : Word), s.port = some cw → step s = .next t →
    t.port = some cw ∨ (∃ rest, s.agenda = .reset :: rest) ∨
      (t.port = none ∧ stepWord cw { s with port := none, agenda := s.agenda.tail } = .next t)

/-- With nothing held and nothing to come, the core waits and keeps all of its state (60_exceptions.md, section 6). -/
def Obligations.IdleCoreKeepsItsState : Prop :=
  ∀ s : State, s.cfg.ok = true → s.port = none → s.agenda = [] → step s = .next s

/-- A read changes no state and returns the value of its index between two commands; a reserved index reads 0
(10_state.md, section 4). The value joins the record of reads, the model's own field (log entries 3 and 7). -/
def Obligations.ReadHasNoSideEffect : Prop :=
  ∀ (s : State) (i : BitVec 8) (rest : List Event), s.cfg.ok = true → s.agenda = .read i :: rest →
    step s = .next { s with agenda := rest, reads := s.reads ++ [readPort i s] } ∧
    (13 ≤ i.toNat → readPort i s = 0)

/-- Reset gives every piece of state its reset value, LEN included, and drops a word held at the port
(70_reset_and_hazards.md, section 1). The record of reads, the rest of the agenda and CFG, the model's own fields, stay
(log entries 1, 3 and 7). -/
def Obligations.ResetTakesEveryFieldToItsResetValue : Prop :=
  ∀ (s : State) (rest : List Event), s.cfg.ok = true → s.agenda = .reset :: rest →
    ∃ t, step s = .next t ∧
      t.lanes = ⟨0, 0, 0, 0⟩ ∧ (∀ k : Fin 64, t.buf[k] = 0) ∧ t.bcnt = 0 ∧ t.len = 0 ∧ t.abscnt = 0 ∧ t.bidx = 0 ∧
      t.tbits = 0 ∧ t.phase = .idle ∧ t.errcode = 0 ∧ t.drop = false ∧ t.errinfo = 0 ∧ t.digest = ⟨0, 0, 0, 0⟩ ∧
      statusWord t = 0 ∧ t.port = none ∧ t.agenda = rest ∧ t.reads = s.reads ∧ t.cfg = s.cfg

/-- R39: the reset values of the architectural state. -/
def Obligations.StateAfterReset : Prop :=
  State.reset.lanes = ⟨0, 0, 0, 0⟩ ∧ (∀ k : Fin 64, State.reset.buf[k] = 0x00) ∧ State.reset.bcnt = 0 ∧
    State.reset.len = 0 ∧ State.reset.abscnt = 0 ∧ State.reset.bidx = 0 ∧ State.reset.tbits = 0 ∧
    State.reset.phase = .idle ∧ State.reset.errcode = 0 ∧ State.reset.drop = false ∧ State.reset.errinfo = 0 ∧
    State.reset.digest = ⟨0, 0, 0, 0⟩

/-! ### The read port -/

/-- R35: the read map. -/
def Obligations.ReadMap : Prop :=
  ∀ s : State,
    readPort 0 s = 0x44504331 ∧ readPort 1 s = statusWord s ∧ readPort 2 s = s.errinfo ∧
    readPort 3 s = s.len.extractLsb' 0 32 ∧ readPort 4 s = s.len.extractLsb' 32 32 ∧
    readPort 5 s = s.abscnt.extractLsb' 0 32 ∧ readPort 6 s = s.abscnt.extractLsb' 32 32 ∧
    readPort 7 s = s.bidx ∧ readPort 8 s = s.bcnt.setWidth 32 ∧
    readPort 9 s = s.digest.s0 ∧ readPort 10 s = s.digest.s1 ∧ readPort 11 s = s.digest.s2 ∧
    readPort 12 s = s.digest.s3 ∧ ∀ i : BitVec 8, 13 ≤ i.toNat → readPort i s = 0

/-- The fields of STATUS (10_state.md, section 4). -/
def Obligations.StatusFields : Prop :=
  ∀ s : State,
    (statusWord s).extractLsb' 0 2 =
      (match s.phase with | .idle => 0#2 | .absorb => 1#2 | .done => 2#2 | .error => 3#2) ∧
    (statusWord s).getLsbD 2 = decide (s.phase = .done) ∧
    (statusWord s).getLsbD 3 = decide (s.phase = .error) ∧
    (statusWord s).getLsbD 4 = s.drop ∧
    (statusWord s).extractLsb' 5 3 = 0 ∧
    (statusWord s).extractLsb' 8 4 = s.errcode ∧
    (statusWord s).extractLsb' 12 20 = 0

/-- S, B and TBITS can be read by no index (10_state.md, section 5). -/
def Obligations.ReadsCannotSeeHiddenState : Prop :=
  ∀ s t : State, SameReadable s t → readVisible s = readVisible t

/-! ### Errors -/

/-- R225 and R77: an opcode of 0x08 or more raises ILLEGAL_OPCODE whatever its operand bits and the phase, and is
discarded in phase ERROR. -/
def Obligations.IllegalOpcodeRaises : Prop :=
  ∀ (cw : Word) (s : State), 0x08 ≤ opcodeField cw →
    stepWord cw s =
      if s.phase = .error then .next { s with drop := true }
      else .next { s with phase := .error, errcode := 1, errinfo := cw }

/-- R226: a defined opcode with a reserved bit set raises RESERVED_NONZERO, and so does a word whose opcode is defined
but which matches no row of R76. -/
def Obligations.ReservedBitRaises : Prop :=
  ∀ (cw : Word) (s : State), s.phase ≠ .error →
    (ReservedBitSet cw → stepWord cw s = .next { s with phase := .error, errcode := 2, errinfo := cw }) ∧
    (opcodeField cw < 0x08 →
      (∀ i, decode cw ≠ .cmd i) → stepWord cw s = .next { s with phase := .error, errcode := 2, errinfo := cw })

/-- R227: a well-formed command that is not legal in the phase raises BAD_PHASE. -/
def Obligations.BadPhaseRaises : Prop :=
  ∀ (s : State) (i : Instr),
    (s.phase = .absorb ∧ (i = .start ∨ ∃ k imm16, i = .setlen k imm16)) ∨
      ((s.phase = .idle ∨ s.phase = .done) ∧ (isAbsorb i = true ∨ i = .final)) →
    exec i s = .next { s with phase := .error, errcode := 3, errinfo := encode i }

/-- R228: ABSn beyond the declared length raises OVERRUN, and appends no byte. -/
def Obligations.OverrunRaises : Prop :=
  ∀ (s : State) (b0 b1 b2 : Byte), s.phase = .absorb →
    (s.abscnt.toNat + 1 > s.len.toNat →
      exec (.abs1 b0) s = .next { s with phase := .error, errcode := 4, errinfo := encode (.abs1 b0) }) ∧
    (s.abscnt.toNat + 2 > s.len.toNat →
      exec (.abs2 b0 b1) s = .next { s with phase := .error, errcode := 4, errinfo := encode (.abs2 b0 b1) }) ∧
    (s.abscnt.toNat + 3 > s.len.toNat →
      exec (.abs3 b0 b1 b2) s = .next { s with phase := .error, errcode := 4, errinfo := encode (.abs3 b0 b1 b2) })

/-- R222: errors are precise. A command that raises an error writes PHASE, ERRCODE and ERRINFO (the full command word)
and nothing else; STATUS then reads ERRCODE<<8 with ERR and PHASE set. -/
def Obligations.ErrorEntryIsPrecise : Prop :=
  ∀ (cw : Word) (s t : State), s.phase ≠ .error → stepWord cw s = .next t → t.phase = .error →
    t = { s with phase := .error, errcode := t.errcode, errinfo := cw } ∧
    1 ≤ t.errcode.toNat ∧ t.errcode.toNat ≤ 5 ∧
    (s.drop = false → statusWord t = (t.errcode.setWidth 32 <<< 8) ||| 0x8 ||| 0x3)

/-- R223: in phase ERROR only the exact word 0x07000000 is executed; every other word sets DROP and changes nothing
else. -/
def Obligations.ErrorPhaseDiscards : Prop :=
  ∀ (cw : Word) (s : State), s.phase = .error →
    (cw = 0x07000000 → ∃ t, stepWord cw s = .next t ∧ exec .clr s = .next t ∧ t.phase = .idle) ∧
    (cw ≠ 0x07000000 → stepWord cw s = .next { s with drop := true })

/-! ### The control commands -/

/-- R192: NOP changes nothing outside ERROR; in ERROR it sets DROP; a nonzero operand bit raises RESERVED_NONZERO. -/
def Obligations.NopChangesNothing : Prop :=
  encode .nop = 0x00000000 ∧ ∀ s : State,
    (s.phase ≠ .error → exec .nop s = .next s) ∧
    (s.phase = .error → exec .nop s = .next { s with drop := true }) ∧
    (∀ cw : Word, opcodeField cw = 0x00 → cw.extractLsb' 0 24 ≠ 0 → s.phase ≠ .error →
      stepWord cw s = .next { s with phase := .error, errcode := 2, errinfo := cw })

/-- R193: START loads IV, latches T, clears the counters and D and enters ABSORB; LEN is kept; in ABSORB it is
BAD_PHASE; with LEN = 0 any ABSn after it is OVERRUN. -/
def Obligations.StartBeginsMessage : Prop :=
  encode .start = 0x01000000 ∧ ∀ s : State,
    (s.phase = .idle ∨ s.phase = .done →
      exec .start s = .next
        { s with lanes := s.cfg.iv, tbits := s.len * 8, abscnt := 0, bcnt := 0, bidx := 0, digest := ⟨0, 0, 0, 0⟩,
                 phase := .absorb }) ∧
    (s.phase = .absorb → exec .start s = .next { s with phase := .error, errcode := 3, errinfo := 0x01000000 }) ∧
    (∀ cw : Word, opcodeField cw = 0x01 → cw.extractLsb' 0 24 ≠ 0 → s.phase ≠ .error →
      stepWord cw s = .next { s with phase := .error, errcode := 2, errinfo := cw }) ∧
    (s.phase = .idle ∨ s.phase = .done → s.len = 0 → ∀ t i, exec .start s = .next t → isAbsorb i = true →
      exec i t = .next { t with phase := .error, errcode := 4, errinfo := encode i })

/-- R194: SETLEN writes the chunk K of LEN and keeps the other 48 bits and all other state; in ABSORB it is BAD_PHASE;
a nonzero CW[23:18] is RESERVED_NONZERO. -/
def Obligations.SetlenWritesOneChunk : Prop :=
  ∀ (s : State) (k : BitVec 2) (imm16 : BitVec 16),
    encode (.setlen k imm16) = (0x02000000 ||| k.setWidth 32 <<< 16 ||| imm16.setWidth 32) ∧
    (s.phase = .idle ∨ s.phase = .done →
      ∃ v : DWord, exec (.setlen k imm16) s = .next { s with len := v } ∧
        ∀ j : Fin 64, v.getLsbD j.val =
          if 16 * k.toNat ≤ j.val ∧ j.val < 16 * k.toNat + 16 then imm16.getLsbD (j.val - 16 * k.toNat)
          else s.len.getLsbD j.val) ∧
    (s.phase = .absorb →
      exec (.setlen k imm16) s = .next { s with phase := .error, errcode := 3, errinfo := encode (.setlen k imm16) }) ∧
    (∀ cw : Word, opcodeField cw = 0x02 → cw.extractLsb' 18 6 ≠ 0 → s.phase ≠ .error →
      stepWord cw s = .next { s with phase := .error, errcode := 2, errinfo := cw })

/-- R202: CLR gives every piece of state its reset value except LEN, in every phase; outside ERROR a CLR word with
reserved bits is RESERVED_NONZERO, in ERROR it is discarded. -/
def Obligations.ClrClearsAllButLen : Prop :=
  encode .clr = 0x07000000 ∧ ∀ s : State,
    exec .clr s = .next
      { s with lanes := ⟨0, 0, 0, 0⟩, buf := Vector.replicate 64 0, bcnt := 0, abscnt := 0, bidx := 0, tbits := 0,
               phase := .idle, errcode := 0, drop := false, errinfo := 0, digest := ⟨0, 0, 0, 0⟩ } ∧
    (∀ t, exec .clr s = .next t → statusWord t = 0) ∧
    (∀ cw : Word, opcodeField cw = 0x07 → cw.extractLsb' 0 24 ≠ 0 →
      stepWord cw s =
        if s.phase = .error then .next { s with drop := true }
        else .next { s with phase := .error, errcode := 2, errinfo := cw })

/-- The pseudo-instructions: the four SETLENs of LEN64 leave LEN at the declared value, whatever it was, and change
nothing else; ABSORB splits a message into absorb commands that carry exactly its bytes, in order (30_encoding.md,
section 6). -/
def Obligations.PseudoInstructionsExpand : Prop :=
  (∀ (s : State) (v : DWord), s.phase = .idle ∨ s.phase = .done →
    execAll (len64 v) s = .next { s with len := v }) ∧
  ∀ m : List Byte, (absorbAll m).flatMap messageBytes = m ∧ ∀ i ∈ absorbAll m, isAbsorb i = true

/-! ### The data commands -/

/-- ABS1 with room appends its byte at BCNT and counts it; the byte that fills the buffer compresses the block inside
the same command (45_commands.md, section 3). -/
def Obligations.Abs1AppendsOneByte : Prop :=
  ∀ (s : State) (b0 : Byte), s.phase = .absorb → s.abscnt.toNat + 1 ≤ s.len.toNat →
    (∀ h : s.bcnt.toNat < 63,
      exec (.abs1 b0) s = .next
        { s with abscnt := s.abscnt + 1, buf := s.buf.set s.bcnt.toNat b0 (by omega), bcnt := s.bcnt + 1 }) ∧
    (s.bcnt.toNat = 63 →
      exec (.abs1 b0) s = .next
        { s with
          abscnt := s.abscnt + 1
          buf := s.buf.set 63 b0
          lanes := compress s.cfg s.lanes (schedule s.cfg (extract (s.buf.set 63 b0))) s.bidx s.tbits
          bidx := s.bidx + 1
          bcnt := 0 })

/-- ABS2 with room for both bytes does what ABS1 of its first byte and then ABS1 of its second do (45_commands.md,
section 3). -/
def Obligations.Abs2AppendsTwoBytes : Prop :=
  ∀ (s : State) (b0 b1 : Byte), s.phase = .absorb → s.abscnt.toNat + 2 ≤ s.len.toNat →
    ∃ t u, exec (.abs1 b0) s = .next t ∧ exec (.abs1 b1) t = .next u ∧ exec (.abs2 b0 b1) s = .next u

/-- ABS3 with room for its three bytes does what ABS1 of each byte, in order, does (45_commands.md, section 3). -/
def Obligations.Abs3AppendsThreeBytes : Prop :=
  ∀ (s : State) (b0 b1 b2 : Byte), s.phase = .absorb → s.abscnt.toNat + 3 ≤ s.len.toNat →
    ∃ t u v, exec (.abs1 b0) s = .next t ∧ exec (.abs1 b1) t = .next u ∧ exec (.abs1 b2) u = .next v ∧
      exec (.abs3 b0 b1 b2) s = .next v

/-- The frame of ABS1, ABS2 and ABS3: whatever they answer, they write at most S, B, BCNT, BIDX, ABSCNT and the error
registers, and B only at the positions of their bytes, which start at BCNT and wrap at 64 (45_commands.md, section 3;
60_exceptions.md, section 2). -/
def Obligations.AbsorbFrame : Prop :=
  ∀ (s t : State) (i : Instr), isAbsorb i = true → exec i s = .next t →
    t = { s with
          lanes := t.lanes, buf := t.buf, bcnt := t.bcnt, bidx := t.bidx, abscnt := t.abscnt,
          phase := t.phase, errcode := t.errcode, errinfo := t.errinfo, drop := t.drop } ∧
    ∀ k : Fin 64, (∀ q < (messageBytes i).length, k.val ≠ (s.bcnt.toNat + q) % 64) → t.buf[k] = s.buf[k]

/-- R201 and R229: FINAL with the declared length reached compresses one block if BCNT <= 55 and two otherwise, the
first with the bytes held, the marker and zeros, the last ending in the bit length, writes D from the Finalizer and
enters DONE; short of the length it is UNDERRUN, in IDLE and DONE BAD_PHASE, with a reserved bit RESERVED_NONZERO. -/
def Obligations.FinalCompletesTheMessage : Prop :=
  encode .final = 0x06000000 ∧ ∀ s : State,
    (s.phase = .absorb → s.len.toNat ≤ s.abscnt.toNat → s.bcnt.toNat ≤ 55 →
      ∀ l, l = compress s.cfg s.lanes (schedule s.cfg (extract (markerBlock s))) s.bidx s.tbits →
        exec .final s = .next
          { s with lanes := l, buf := markerBlock s, bcnt := 0, bidx := s.bidx + 1,
                   digest := finalize s.cfg l s.tbits, phase := .done }) ∧
    (s.phase = .absorb → s.len.toNat ≤ s.abscnt.toNat → 55 < s.bcnt.toNat →
      ∀ l l', l = compress s.cfg s.lanes (schedule s.cfg (extract (markerBlock s))) s.bidx s.tbits →
        l' = compress s.cfg l (schedule s.cfg (extract (lengthBlock s.tbits))) (s.bidx + 1) s.tbits →
        exec .final s = .next
          { s with lanes := l', buf := lengthBlock s.tbits, bcnt := 0, bidx := s.bidx + 2,
                   digest := finalize s.cfg l' s.tbits, phase := .done }) ∧
    (s.phase = .absorb → s.abscnt.toNat < s.len.toNat →
      exec .final s = .next { s with phase := .error, errcode := 5, errinfo := 0x06000000 }) ∧
    (s.phase = .idle ∨ s.phase = .done →
      exec .final s = .next { s with phase := .error, errcode := 3, errinfo := 0x06000000 }) ∧
    (∀ cw : Word, opcodeField cw = 0x06 → cw.extractLsb' 0 24 ≠ 0 → s.phase ≠ .error →
      stepWord cw s = .next { s with phase := .error, errcode := 2, errinfo := cw })

/-! ### What only some commands write -/

/-- LEN is written by SETLEN alone: no other command writes it (10_state.md, section 3). -/
def Obligations.OnlySetlenWritesLen : Prop :=
  ∀ (s t : State) (i : Instr), exec i s = .next t → (∀ k imm16, i ≠ .setlen k imm16) → t.len = s.len

/-- FINAL writes D, START and CLR clear it, no other command changes it; a command that raises an error or is
discarded does not change it either (10_state.md, section 4). -/
def Obligations.DigestRegisterLifetime : Prop :=
  ∀ (s t : State) (i : Instr), exec i s = .next t → t.digest =
    match i with
    | .start => if t.phase = .absorb ∧ s.phase ≠ .absorb then ⟨0, 0, 0, 0⟩ else s.digest
    | .final => if t.phase = .done then finalize s.cfg t.lanes s.tbits else s.digest
    | .clr => ⟨0, 0, 0, 0⟩
    | .nop | .setlen _ _ | .abs1 _ | .abs2 _ _ | .abs3 _ _ _ => s.digest

/-- T is latched by START and cleared by CLR; no other command writes it (10_state.md, section 3). -/
def Obligations.BitLengthIsLatched : Prop :=
  ∀ (s t : State) (i : Instr), exec i s = .next t → t.tbits =
    match i with
    | .start => if t.phase = .absorb ∧ s.phase ≠ .absorb then s.len * 8 else s.tbits
    | .clr => 0
    | .nop | .setlen _ _ | .abs1 _ | .abs2 _ _ | .abs3 _ _ _ | .final => s.tbits

/-- Every command completes with a next state, and keeps CFG, the port, the agenda and the record of reads: the host's
side is no command's to change (45_commands.md, section 1; log entries 1, 3 and 7). -/
def Obligations.CommandsCompleteAndKeepTheHostSide : Prop :=
  ∀ (s : State) (i : Instr), ∃ t, exec i s = .next t ∧
    t.cfg = s.cfg ∧ t.port = s.port ∧ t.agenda = s.agenda ∧ t.reads = s.reads

/-- The phase changes of a command (45_commands.md, section 5; an inference the spec marks as its own). -/
def Obligations.PhaseChanges : Prop :=
  ∀ (s t : State) (i : Instr), exec i s = .next t →
    (i = .clr ∧ t.phase = .idle) ∨
    (i ≠ .clr ∧ t.phase = .error) ∨
    (s.phase ≠ .error ∧
      match i with
      | .start => (s.phase = .idle ∨ s.phase = .done) ∧ t.phase = .absorb
      | .final => s.phase = .absorb ∧ t.phase = .done
      | .nop | .setlen _ _ | .abs1 _ | .abs2 _ _ | .abs3 _ _ _ => t.phase = s.phase
      | .clr => False)

/-- BIDX advances by the number of blocks a command compresses, mod 2^32, and a command compresses at most two: none
for the control commands, at most one for ABSn, one or two for a FINAL that completes (70_reset_and_hazards.md,
section 4; 45_commands.md, section 3). -/
def Obligations.BlockIndexCountsCompressions : Prop :=
  ∀ (s t : State) (i : Instr), exec i s = .next t → i ≠ .start → i ≠ .clr →
    t.bidx = s.bidx + BitVec.ofNat 32 (blocksRun i s) ∧
    (isAbsorb i = true → blocksRun i s ≤ 1) ∧
    (i = .final → t.phase = .done → blocksRun i s = 1 ∨ blocksRun i s = 2) ∧
    (isAbsorb i = false → i ≠ .final → blocksRun i s = 0)

/-! ### Invariants -/

/-- The invariant holds at reset, and ABSCNT is within LEN there. -/
def Obligations.ResetMeetsTheInvariant : Prop := StateInv State.reset ∧ AbscntWithinLen State.reset

/-- Every step keeps the invariant of the counters, the error registers and D (10_state.md, sections 3 and 4;
60_exceptions.md, sections 1, 2 and 4). -/
def Obligations.StepKeepsTheInvariant : Prop :=
  ∀ s t : State, StateInv s → step s = .next t → StateInv t

/-- CFG is fixed: no step changes it (00_scope.md, section 4; log entry 1). -/
def Obligations.StepKeepsTheConfiguration : Prop :=
  ∀ s t : State, step s = .next t → t.cfg = s.cfg

/-- ABSCNT counts the message bytes appended since START: a START that begins a message and CLR clear it, an absorb
command that appends adds its bytes, nothing else writes it, padding included. When FINAL completes, ABSCNT is LEN. In
every phase a step keeps ABSCNT within LEN, but for a SETLEN executed in DONE, which writes the length of the next
message (10_state.md, section 3; 45_commands.md, sections 2 and 3; log entry 9, DEDUCED). -/
def Obligations.AbscntCountsAndStaysWithinLen : Prop :=
  (∀ (s t : State) (i : Instr), exec i s = .next t → t.abscnt =
    match i with
    | .start => if t.phase = .absorb ∧ s.phase ≠ .absorb then 0 else s.abscnt
    | .clr => 0
    | .abs1 _ => if t.phase = .absorb then s.abscnt + 1 else s.abscnt
    | .abs2 _ _ => if t.phase = .absorb then s.abscnt + 2 else s.abscnt
    | .abs3 _ _ _ => if t.phase = .absorb then s.abscnt + 3 else s.abscnt
    | .nop | .setlen _ _ | .final => s.abscnt) ∧
  (∀ s t : State, StateInv s → exec .final s = .next t → t.phase = .done → t.abscnt = t.len) ∧
  ∀ s t : State, StateInv s → AbscntWithinLen s → ¬ SetlenDueInDone s → step s = .next t → AbscntWithinLen t

/-- SETLEN in DONE can leave ABSCNT above LEN, against the derived remark of 10_state.md, section 3, that it never is:
the command rule is followed (log entry 9, DEDUCED). -/
def Obligations.SetlenInDoneCanPassBelowAbscnt : Prop :=
  ∃ s t : State, StateInv s ∧ s.phase = .done ∧ s.abscnt.toNat ≤ s.len.toNat ∧
    exec (.setlen 0 0) s = .next t ∧ t.len.toNat < t.abscnt.toNat

/-- The stale bytes of B are never read: two states that agree in all else answer every command alike
(10_state.md, section 3; an inference the spec marks as its own). -/
def Obligations.StaleBytesAreNeverRead : Prop :=
  ∀ (s t s' : State) (i : Instr), SameButStale s t → exec i s = .next s' →
    ∃ t', exec i t = .next t' ∧ SameButStale s' t'

/-- START makes every piece of state a digest depends on anew: two states that may differ in everything a message
writes agree after it in all but stale bytes (10_state.md, section 5). -/
def Obligations.StartForgetsThePast : Prop :=
  ∀ (s s' : State) (l d : Lanes) (b : Block) (n : BitVec 6) (a v : DWord) (x : Word) (p : Phase),
    (s.phase = .idle ∨ s.phase = .done) → (p = .idle ∨ p = .done) → exec .start s = .next s' →
    ∃ t', exec .start { s with lanes := l, buf := b, bcnt := n, abscnt := a, bidx := x, tbits := v, phase := p,
                               digest := d } = .next t' ∧ SameButStale s' t'

/-! ### The pipeline -/

/-- R101: z is the least number of zero bytes that completes the last block, and `z = (55 - (L mod 64)) mod 64`. -/
def Obligations.PaddingIsLeast : Prop :=
  ∀ n : Nat,
    (padZeros n : Int) = (55 - (n : Int) % 64) % 64 ∧ padZeros n ≤ 63 ∧
    (n + 1 + padZeros n + 8) % 64 = 0 ∧ ∀ z : Nat, z < padZeros n → (n + 1 + z + 8) % 64 ≠ 0

/-- A padded message has NB(L) blocks of 64 bytes, starts with the message and its marker, and ends in the message's
bit length mod 2^64, big-endian (40_padder_segmenter.md, section 1). -/
def Obligations.PaddedMessageShape : Prop :=
  ∀ m : List Byte,
    (pad m).length = 64 * numBlocks m.length ∧ m.length + 9 ≤ (pad m).length ∧
    (pad m).take (m.length + 1) = m ++ [0x80] ∧
    ((pad m).drop ((pad m).length - 8)).foldl (fun n b => n * 256 + b.toNat) 0 = 8 * m.length % 2 ^ 64

/-- R104: Segment cuts a buffer of whole blocks into its blocks, in order, faults on any other, and cuts a padded message
into NB blocks. -/
def Obligations.SegmentCutsWholeBlocksOnly : Prop :=
  (∀ p : List Byte,
    (p.length % 64 = 0 →
      ∃ bs, Machine.segment p = .ok bs ∧ bs.length = p.length / 64 ∧ (bs.flatMap fun b => b.toList) = p) ∧
    (p.length % 64 ≠ 0 → Machine.segment p = .error .segmentAlign)) ∧
  ∀ m : List Byte, ∃ bs, Machine.segment (pad m) = .ok bs ∧ bs.length = numBlocks m.length

/-- Digest is total: no message makes it fault (44_finalizer.md, section on the digest function). -/
def Obligations.DigestIsTotal : Prop :=
  ∀ (c : Cfg) (m : List Byte), ∃ d, digestOf c m = .ok d

/-- Extract is a bijection, and byte j of word i is byte 4i+j of the block (41_word_extractor.md; an inference the spec
marks as its own). -/
def Obligations.ExtractIsABijection : Prop :=
  Function.Bijective extract ∧
    ∀ (blk : Block) (i : Fin 16) (j : Fin 4),
      blk[4 * i.val + j.val] = ((extract blk)[i]).extractLsb' (24 - 8 * j.val) 8

/-- Output word i of Stage A depends on the input words i, i+1 and i+9, mod 16, and on no other
(42_word_scheduler.md, section 1). -/
def Obligations.StageAReadsThreeWords : Prop :=
  ∀ (c : Cfg) (w w' : Words) (i : Fin 16),
    w[i] = w'[i] → w[(i.val + 1) % 16] = w'[(i.val + 1) % 16] → w[(i.val + 9) % 16] = w'[(i.val + 9) % 16] →
    (stageA c w)[i] = (stageA c w')[i]

/-- Stage B is a bijection on Word Arrays (42_word_scheduler.md, section 2; an inference the spec marks as its own). -/
def Obligations.StageBIsABijection : Prop := Function.Bijective stageB

/-- The Finalizer loses no information: for every valid CFG and every T it is a bijection on States
(44_finalizer.md; an inference the spec marks as its own). -/
def Obligations.FinalizeIsABijection : Prop :=
  ∀ (c : Cfg) (t : DWord), c.ok = true → Function.Bijective fun s => finalize c s t

/-! ### The command machine computes the digest -/

/-- START opens an empty message, and every absorb command with room extends the absorbed message by its bytes
(45_commands.md, sections 2 and 3). -/
def Obligations.AbsorbExtendsTheMessage : Prop :=
  (∀ s : State, s.phase = .idle ∨ s.phase = .done → ∃ t, exec .start s = .next t ∧ Absorbed [] t) ∧
  ∀ (m : List Byte) (s : State) (i : Instr), Absorbed m s → isAbsorb i = true →
    m.length + (messageBytes i).length ≤ s.len.toNat →
    ∃ t, exec i s = .next t ∧ Absorbed (m ++ messageBytes i) t

/-- FINAL of an absorbed message of the declared length leaves Digest(m) in D (45_commands.md, section 3;
44_finalizer.md, the digest function). -/
def Obligations.FinalOfAbsorbedIsTheDigest : Prop :=
  ∀ (m : List Byte) (s : State), Absorbed m s → m.length = s.len.toNat →
    ∃ t, exec .final s = .next t ∧ digestOf s.cfg m = .ok t.digest ∧ t.phase = .done ∧
      t.abscnt = s.abscnt ∧ t.bcnt = 0 ∧ t.bidx = BitVec.ofNat 32 (numBlocks m.length)

/-- The command machine computes the reference digest: LEN64, START, any absorb commands whose bytes concatenate to m,
FINAL (45_commands.md, section 5; an inference the spec marks as its own). -/
def Obligations.CommandMachineComputesTheDigest : Prop :=
  ∀ (m : List Byte) (abs : List Instr) (s : State), (s.phase = .idle ∨ s.phase = .done) → m.length < 2 ^ 64 →
    (∀ i ∈ abs, isAbsorb i = true) → abs.flatMap messageBytes = m →
    ∃ t, execAll (len64 (BitVec.ofNat 64 m.length) ++ .start :: abs ++ [.final]) s = .next t ∧
      digestOf s.cfg m = .ok t.digest ∧ t.phase = .done ∧ t.abscnt.toNat = m.length ∧ t.bcnt = 0 ∧
      t.bidx = BitVec.ofNat 32 (numBlocks m.length) ∧
      t.errcode = s.errcode ∧ t.errinfo = s.errinfo ∧ t.drop = s.drop

/-- A clean launch of HASH m followed by reads of STATUS and D0..D3 ends with STATUS = 6 and the reads returning
Digest(m), for every valid CFG (70_reset_and_hazards.md, section 5; an inference the spec marks as its own). -/
def Obligations.CleanLaunchOfHashReturnsTheDigest : Prop :=
  ∀ (m : List Byte) (s : State), s.cfg.ok = true → Clean s → m.length < 2 ^ 64 →
    ∃ t d, runLaunch s ((hashOf m).map (fun i => Interaction.command (encode i)) ++
        [.read 1, .read 9, .read 10, .read 11, .read 12]) = .next t ∧
      digestOf s.cfg m = .ok d ∧ t.reads = [0x00000006, d.s0, d.s1, d.s2, d.s3] ∧ Succeeded t
end

