-- ==== Sys2Proof/Laws/State.lean ====
section
/-! SUPPORT. What each named operation makes of each field of the state: one lemma per field per operation, so that no
later proof unfolds a record update. -/

namespace Sys2Proof.Laws

open Sys2Proof.Machine

@[simp] theorem raiseError_lanes (e : ErrCause) (cw : Word) (s : State) : (raiseError e cw s).lanes = s.lanes := rfl
@[simp] theorem raiseError_buf (e : ErrCause) (cw : Word) (s : State) : (raiseError e cw s).buf = s.buf := rfl
@[simp] theorem raiseError_bcnt (e : ErrCause) (cw : Word) (s : State) : (raiseError e cw s).bcnt = s.bcnt := rfl
@[simp] theorem raiseError_len (e : ErrCause) (cw : Word) (s : State) : (raiseError e cw s).len = s.len := rfl
@[simp] theorem raiseError_abscnt (e : ErrCause) (cw : Word) (s : State) : (raiseError e cw s).abscnt = s.abscnt := rfl
@[simp] theorem raiseError_bidx (e : ErrCause) (cw : Word) (s : State) : (raiseError e cw s).bidx = s.bidx := rfl
@[simp] theorem raiseError_tbits (e : ErrCause) (cw : Word) (s : State) : (raiseError e cw s).tbits = s.tbits := rfl
@[simp] theorem raiseError_phase (e : ErrCause) (cw : Word) (s : State) : (raiseError e cw s).phase = .error := rfl
@[simp] theorem raiseError_errcode (e : ErrCause) (cw : Word) (s : State) : (raiseError e cw s).errcode = causeBits e := rfl
@[simp] theorem raiseError_drop (e : ErrCause) (cw : Word) (s : State) : (raiseError e cw s).drop = s.drop := rfl
@[simp] theorem raiseError_errinfo (e : ErrCause) (cw : Word) (s : State) : (raiseError e cw s).errinfo = cw := rfl
@[simp] theorem raiseError_digest (e : ErrCause) (cw : Word) (s : State) : (raiseError e cw s).digest = s.digest := rfl
@[simp] theorem raiseError_cfg (e : ErrCause) (cw : Word) (s : State) : (raiseError e cw s).cfg = s.cfg := rfl
@[simp] theorem raiseError_port (e : ErrCause) (cw : Word) (s : State) : (raiseError e cw s).port = s.port := rfl
@[simp] theorem raiseError_agenda (e : ErrCause) (cw : Word) (s : State) : (raiseError e cw s).agenda = s.agenda := rfl
@[simp] theorem raiseError_reads (e : ErrCause) (cw : Word) (s : State) : (raiseError e cw s).reads = s.reads := rfl

@[simp] theorem discard_lanes (s : State) : (discard s).lanes = s.lanes := rfl
@[simp] theorem discard_buf (s : State) : (discard s).buf = s.buf := rfl
@[simp] theorem discard_bcnt (s : State) : (discard s).bcnt = s.bcnt := rfl
@[simp] theorem discard_len (s : State) : (discard s).len = s.len := rfl
@[simp] theorem discard_abscnt (s : State) : (discard s).abscnt = s.abscnt := rfl
@[simp] theorem discard_bidx (s : State) : (discard s).bidx = s.bidx := rfl
@[simp] theorem discard_tbits (s : State) : (discard s).tbits = s.tbits := rfl
@[simp] theorem discard_phase (s : State) : (discard s).phase = s.phase := rfl
@[simp] theorem discard_errcode (s : State) : (discard s).errcode = s.errcode := rfl
@[simp] theorem discard_drop (s : State) : (discard s).drop = true := rfl
@[simp] theorem discard_errinfo (s : State) : (discard s).errinfo = s.errinfo := rfl
@[simp] theorem discard_digest (s : State) : (discard s).digest = s.digest := rfl
@[simp] theorem discard_cfg (s : State) : (discard s).cfg = s.cfg := rfl
@[simp] theorem discard_port (s : State) : (discard s).port = s.port := rfl
@[simp] theorem discard_agenda (s : State) : (discard s).agenda = s.agenda := rfl
@[simp] theorem discard_reads (s : State) : (discard s).reads = s.reads := rfl

@[simp] theorem processBlock_lanes (s : State) : (processBlock s).lanes = blockStep s.cfg s.tbits s.lanes s.bidx s.buf := rfl
@[simp] theorem processBlock_buf (s : State) : (processBlock s).buf = s.buf := rfl
@[simp] theorem processBlock_bcnt (s : State) : (processBlock s).bcnt = 0 := rfl
@[simp] theorem processBlock_len (s : State) : (processBlock s).len = s.len := rfl
@[simp] theorem processBlock_abscnt (s : State) : (processBlock s).abscnt = s.abscnt := rfl
@[simp] theorem processBlock_bidx (s : State) : (processBlock s).bidx = s.bidx + 1 := rfl
@[simp] theorem processBlock_tbits (s : State) : (processBlock s).tbits = s.tbits := rfl
@[simp] theorem processBlock_phase (s : State) : (processBlock s).phase = s.phase := rfl
@[simp] theorem processBlock_errcode (s : State) : (processBlock s).errcode = s.errcode := rfl
@[simp] theorem processBlock_drop (s : State) : (processBlock s).drop = s.drop := rfl
@[simp] theorem processBlock_errinfo (s : State) : (processBlock s).errinfo = s.errinfo := rfl
@[simp] theorem processBlock_digest (s : State) : (processBlock s).digest = s.digest := rfl
@[simp] theorem processBlock_cfg (s : State) : (processBlock s).cfg = s.cfg := rfl
@[simp] theorem processBlock_port (s : State) : (processBlock s).port = s.port := rfl
@[simp] theorem processBlock_agenda (s : State) : (processBlock s).agenda = s.agenda := rfl
@[simp] theorem processBlock_reads (s : State) : (processBlock s).reads = s.reads := rfl

@[simp] theorem bufWrite_lanes (b : Byte) (s : State) : (bufWrite b s).lanes = s.lanes := rfl
@[simp] theorem bufWrite_buf (b : Byte) (s : State) : (bufWrite b s).buf = s.buf.set s.bcnt.toNat b (by have := s.bcnt.isLt; omega) := rfl
@[simp] theorem bufWrite_bcnt (b : Byte) (s : State) : (bufWrite b s).bcnt = s.bcnt := rfl
@[simp] theorem bufWrite_len (b : Byte) (s : State) : (bufWrite b s).len = s.len := rfl
@[simp] theorem bufWrite_abscnt (b : Byte) (s : State) : (bufWrite b s).abscnt = s.abscnt := rfl
@[simp] theorem bufWrite_bidx (b : Byte) (s : State) : (bufWrite b s).bidx = s.bidx := rfl
@[simp] theorem bufWrite_tbits (b : Byte) (s : State) : (bufWrite b s).tbits = s.tbits := rfl
@[simp] theorem bufWrite_phase (b : Byte) (s : State) : (bufWrite b s).phase = s.phase := rfl
@[simp] theorem bufWrite_errcode (b : Byte) (s : State) : (bufWrite b s).errcode = s.errcode := rfl
@[simp] theorem bufWrite_drop (b : Byte) (s : State) : (bufWrite b s).drop = s.drop := rfl
@[simp] theorem bufWrite_errinfo (b : Byte) (s : State) : (bufWrite b s).errinfo = s.errinfo := rfl
@[simp] theorem bufWrite_digest (b : Byte) (s : State) : (bufWrite b s).digest = s.digest := rfl
@[simp] theorem bufWrite_cfg (b : Byte) (s : State) : (bufWrite b s).cfg = s.cfg := rfl
@[simp] theorem bufWrite_port (b : Byte) (s : State) : (bufWrite b s).port = s.port := rfl
@[simp] theorem bufWrite_agenda (b : Byte) (s : State) : (bufWrite b s).agenda = s.agenda := rfl
@[simp] theorem bufWrite_reads (b : Byte) (s : State) : (bufWrite b s).reads = s.reads := rfl

@[simp] theorem beginMessage_lanes (s : State) : (beginMessage s).lanes = s.cfg.iv := rfl
@[simp] theorem beginMessage_buf (s : State) : (beginMessage s).buf = s.buf := rfl
@[simp] theorem beginMessage_bcnt (s : State) : (beginMessage s).bcnt = 0 := rfl
@[simp] theorem beginMessage_len (s : State) : (beginMessage s).len = s.len := rfl
@[simp] theorem beginMessage_abscnt (s : State) : (beginMessage s).abscnt = 0 := rfl
@[simp] theorem beginMessage_bidx (s : State) : (beginMessage s).bidx = 0 := rfl
@[simp] theorem beginMessage_tbits (s : State) : (beginMessage s).tbits = bitLength s.len := rfl
@[simp] theorem beginMessage_phase (s : State) : (beginMessage s).phase = .absorb := rfl
@[simp] theorem beginMessage_errcode (s : State) : (beginMessage s).errcode = s.errcode := rfl
@[simp] theorem beginMessage_drop (s : State) : (beginMessage s).drop = s.drop := rfl
@[simp] theorem beginMessage_errinfo (s : State) : (beginMessage s).errinfo = s.errinfo := rfl
@[simp] theorem beginMessage_digest (s : State) : (beginMessage s).digest = ⟨0, 0, 0, 0⟩ := rfl
@[simp] theorem beginMessage_cfg (s : State) : (beginMessage s).cfg = s.cfg := rfl
@[simp] theorem beginMessage_port (s : State) : (beginMessage s).port = s.port := rfl
@[simp] theorem beginMessage_agenda (s : State) : (beginMessage s).agenda = s.agenda := rfl
@[simp] theorem beginMessage_reads (s : State) : (beginMessage s).reads = s.reads := rfl

@[simp] theorem clearState_lanes (s : State) : (clearState s).lanes = ⟨0, 0, 0, 0⟩ := rfl
@[simp] theorem clearState_buf (s : State) : (clearState s).buf = Vector.replicate 64 0 := rfl
@[simp] theorem clearState_bcnt (s : State) : (clearState s).bcnt = 0 := rfl
@[simp] theorem clearState_len (s : State) : (clearState s).len = s.len := rfl
@[simp] theorem clearState_abscnt (s : State) : (clearState s).abscnt = 0 := rfl
@[simp] theorem clearState_bidx (s : State) : (clearState s).bidx = 0 := rfl
@[simp] theorem clearState_tbits (s : State) : (clearState s).tbits = 0 := rfl
@[simp] theorem clearState_phase (s : State) : (clearState s).phase = .idle := rfl
@[simp] theorem clearState_errcode (s : State) : (clearState s).errcode = 0 := rfl
@[simp] theorem clearState_drop (s : State) : (clearState s).drop = false := rfl
@[simp] theorem clearState_errinfo (s : State) : (clearState s).errinfo = 0 := rfl
@[simp] theorem clearState_digest (s : State) : (clearState s).digest = ⟨0, 0, 0, 0⟩ := rfl
@[simp] theorem clearState_cfg (s : State) : (clearState s).cfg = s.cfg := rfl
@[simp] theorem clearState_port (s : State) : (clearState s).port = s.port := rfl
@[simp] theorem clearState_agenda (s : State) : (clearState s).agenda = s.agenda := rfl
@[simp] theorem clearState_reads (s : State) : (clearState s).reads = s.reads := rfl

@[simp] theorem resetState_lanes (s : State) : (resetState s).lanes = ⟨0, 0, 0, 0⟩ := rfl
@[simp] theorem resetState_buf (s : State) : (resetState s).buf = Vector.replicate 64 0 := rfl
@[simp] theorem resetState_bcnt (s : State) : (resetState s).bcnt = 0 := rfl
@[simp] theorem resetState_len (s : State) : (resetState s).len = 0 := rfl
@[simp] theorem resetState_abscnt (s : State) : (resetState s).abscnt = 0 := rfl
@[simp] theorem resetState_bidx (s : State) : (resetState s).bidx = 0 := rfl
@[simp] theorem resetState_tbits (s : State) : (resetState s).tbits = 0 := rfl
@[simp] theorem resetState_phase (s : State) : (resetState s).phase = .idle := rfl
@[simp] theorem resetState_errcode (s : State) : (resetState s).errcode = 0 := rfl
@[simp] theorem resetState_drop (s : State) : (resetState s).drop = false := rfl
@[simp] theorem resetState_errinfo (s : State) : (resetState s).errinfo = 0 := rfl
@[simp] theorem resetState_digest (s : State) : (resetState s).digest = ⟨0, 0, 0, 0⟩ := rfl
@[simp] theorem resetState_cfg (s : State) : (resetState s).cfg = s.cfg := rfl
@[simp] theorem resetState_port (s : State) : (resetState s).port = none := rfl
@[simp] theorem resetState_agenda (s : State) : (resetState s).agenda = s.agenda := rfl
@[simp] theorem resetState_reads (s : State) : (resetState s).reads = s.reads := rfl

@[simp] theorem holdWord_lanes (cw : Word) (s : State) : (holdWord cw s).lanes = s.lanes := rfl
@[simp] theorem holdWord_buf (cw : Word) (s : State) : (holdWord cw s).buf = s.buf := rfl
@[simp] theorem holdWord_bcnt (cw : Word) (s : State) : (holdWord cw s).bcnt = s.bcnt := rfl
@[simp] theorem holdWord_len (cw : Word) (s : State) : (holdWord cw s).len = s.len := rfl
@[simp] theorem holdWord_abscnt (cw : Word) (s : State) : (holdWord cw s).abscnt = s.abscnt := rfl
@[simp] theorem holdWord_bidx (cw : Word) (s : State) : (holdWord cw s).bidx = s.bidx := rfl
@[simp] theorem holdWord_tbits (cw : Word) (s : State) : (holdWord cw s).tbits = s.tbits := rfl
@[simp] theorem holdWord_phase (cw : Word) (s : State) : (holdWord cw s).phase = s.phase := rfl
@[simp] theorem holdWord_errcode (cw : Word) (s : State) : (holdWord cw s).errcode = s.errcode := rfl
@[simp] theorem holdWord_drop (cw : Word) (s : State) : (holdWord cw s).drop = s.drop := rfl
@[simp] theorem holdWord_errinfo (cw : Word) (s : State) : (holdWord cw s).errinfo = s.errinfo := rfl
@[simp] theorem holdWord_digest (cw : Word) (s : State) : (holdWord cw s).digest = s.digest := rfl
@[simp] theorem holdWord_cfg (cw : Word) (s : State) : (holdWord cw s).cfg = s.cfg := rfl
@[simp] theorem holdWord_port (cw : Word) (s : State) : (holdWord cw s).port = some cw := rfl
@[simp] theorem holdWord_agenda (cw : Word) (s : State) : (holdWord cw s).agenda = .accept :: s.agenda := rfl
@[simp] theorem holdWord_reads (cw : Word) (s : State) : (holdWord cw s).reads = s.reads := rfl

end Sys2Proof.Laws
end

