-- ==== Sys2Proof/Laws/Ops.lean ====
section
/-! SUPPORT. What each shared operation can do, said once: the gate, the block buffer, the byte loops, the port. -/

namespace Sys2Proof.Laws

open Sys2Proof.Machine

/-! ### Phases and the gate -/

@[simp] theorem legalIn_error (i : Instr) : legalIn i .error = decide (i = .clr) := by
  cases i <;> rfl

theorem legalIn_eq_false_ne_clr {i : Instr} {p : Phase} (h : legalIn i p = false) : i ≠ .clr := by
  rintro rfl
  cases h

/-- The gate's three answers: the command's effect, the discard of phase ERROR, the entry of BAD_PHASE. -/
theorem whenLegal_cases (i : Instr) (s : State) (body : State → State) :
    (legalIn i s.phase = true ∧ whenLegal i s body = .next (body s)) ∨
    (s.phase = .error ∧ i ≠ .clr ∧ whenLegal i s body = .next (discard s)) ∨
    (s.phase ≠ .error ∧ legalIn i s.phase = false ∧ i ≠ .clr ∧
      whenLegal i s body = .next (raiseError .badPhase (encode i) s)) := by
  unfold whenLegal
  rcases hl : legalIn i s.phase with _ | _
  · have hc := legalIn_eq_false_ne_clr hl
    by_cases hp : s.phase = .error
    · simp [hp, hc]
    · simp [hp, hc]
  · simp

/-- What a command does where it executes (45_commands.md R192-R202). -/
def effectOf : Instr → State → State
  | .nop => id
  | .start => beginMessage
  | .setlen k imm16 => fun s => { s with len := writeChunk s.len k imm16 }
  | .abs1 b0 => absorbOrOverrun (.abs1 b0) [b0]
  | .abs2 b0 b1 => absorbOrOverrun (.abs2 b0 b1) [b0, b1]
  | .abs3 b0 b1 b2 => absorbOrOverrun (.abs3 b0 b1 b2) [b0, b1, b2]
  | .final => finishOrUnderrun
  | .clr => clearState

/-- Every command is its effect behind the gate. -/
theorem exec_eq_whenLegal (i : Instr) (s : State) : exec i s = whenLegal i s (effectOf i) := by
  cases i <;> rfl

/-- Everything a command can answer: its effect, the discard of phase ERROR, or BAD_PHASE. -/
theorem exec_cases (i : Instr) (s : State) :
    (legalIn i s.phase = true ∧ exec i s = .next (effectOf i s)) ∨
    (s.phase = .error ∧ i ≠ .clr ∧ exec i s = .next (discard s)) ∨
    (s.phase ≠ .error ∧ legalIn i s.phase = false ∧ i ≠ .clr ∧
      exec i s = .next (raiseError .badPhase (encode i) s)) := by
  rw [exec_eq_whenLegal]
  exact whenLegal_cases i s (effectOf i)

/-- A legal command answers its effect. -/
theorem exec_of_legal {i : Instr} {s : State} (h : legalIn i s.phase = true) : exec i s = .next (effectOf i s) := by
  rw [exec_eq_whenLegal, whenLegal, if_pos h]

/-! ### The block buffer -/

/-- A byte that leaves room: it is written at BCNT, and BCNT counts it. -/
theorem appendByte_room (b : Byte) (s : State) (h : s.bcnt.toNat < 63) :
    appendByte b s = { bufWrite b s with bcnt := s.bcnt + 1 } := by
  unfold appendByte
  simp [show ¬ s.bcnt.toNat + 1 = 64 by omega]

/-- The byte that fills the buffer: the block is processed. -/
theorem appendByte_full (b : Byte) (s : State) (h : s.bcnt.toNat = 63) :
    appendByte b s = processBlock (bufWrite b s) := by
  unfold appendByte
  simp [h]

theorem appendByte_cases (b : Byte) (s : State) :
    (s.bcnt.toNat < 63 ∧ appendByte b s = { bufWrite b s with bcnt := s.bcnt + 1 }) ∨
    (s.bcnt.toNat = 63 ∧ appendByte b s = processBlock (bufWrite b s)) := by
  have := s.bcnt.isLt
  rcases Nat.lt_or_ge s.bcnt.toNat 63 with h | h
  · exact .inl ⟨h, appendByte_room b s h⟩
  · exact .inr ⟨by omega, appendByte_full b s (by omega)⟩

/-- AppendByte writes S, B, BCNT and BIDX and nothing else. -/
theorem appendByte_frame (b : Byte) (s : State) :
    appendByte b s = { s with
      lanes := (appendByte b s).lanes, buf := (appendByte b s).buf,
      bcnt := (appendByte b s).bcnt, bidx := (appendByte b s).bidx } := by
  rcases appendByte_cases b s with ⟨_, h⟩ | ⟨_, h⟩ <;> rw [h] <;> rfl

@[simp] theorem appendByte_len (b : Byte) (s : State) : (appendByte b s).len = s.len := by
  rw [appendByte_frame]
@[simp] theorem appendByte_abscnt (b : Byte) (s : State) : (appendByte b s).abscnt = s.abscnt := by
  rw [appendByte_frame]
@[simp] theorem appendByte_tbits (b : Byte) (s : State) : (appendByte b s).tbits = s.tbits := by
  rw [appendByte_frame]
@[simp] theorem appendByte_phase (b : Byte) (s : State) : (appendByte b s).phase = s.phase := by
  rw [appendByte_frame]
@[simp] theorem appendByte_errcode (b : Byte) (s : State) : (appendByte b s).errcode = s.errcode := by
  rw [appendByte_frame]
@[simp] theorem appendByte_drop (b : Byte) (s : State) : (appendByte b s).drop = s.drop := by
  rw [appendByte_frame]
@[simp] theorem appendByte_errinfo (b : Byte) (s : State) : (appendByte b s).errinfo = s.errinfo := by
  rw [appendByte_frame]
@[simp] theorem appendByte_digest (b : Byte) (s : State) : (appendByte b s).digest = s.digest := by
  rw [appendByte_frame]
@[simp] theorem appendByte_cfg (b : Byte) (s : State) : (appendByte b s).cfg = s.cfg := by
  rw [appendByte_frame]
@[simp] theorem appendByte_port (b : Byte) (s : State) : (appendByte b s).port = s.port := by
  rw [appendByte_frame]
@[simp] theorem appendByte_agenda (b : Byte) (s : State) : (appendByte b s).agenda = s.agenda := by
  rw [appendByte_frame]
@[simp] theorem appendByte_reads (b : Byte) (s : State) : (appendByte b s).reads = s.reads := by
  rw [appendByte_frame]

/-- BCNT counts the byte mod 64. -/
theorem appendByte_bcnt (b : Byte) (s : State) :
    (appendByte b s).bcnt.toNat = (s.bcnt.toNat + 1) % 64 := by
  rcases appendByte_cases b s with ⟨h, e⟩ | ⟨h, e⟩ <;> rw [e]
  · simp [BitVec.toNat_add]
  · simp [h]

/-- BIDX advances exactly when the byte fills the buffer. -/
theorem appendByte_bidx (b : Byte) (s : State) :
    (appendByte b s).bidx = s.bidx + BitVec.ofNat 32 ((s.bcnt.toNat + 1) / 64) := by
  rcases appendByte_cases b s with ⟨h, e⟩ | ⟨h, e⟩ <;> rw [e]
  · simp [show (s.bcnt.toNat + 1) / 64 = 0 by omega]
  · simp [h]

/-- B holds the new byte at BCNT and its old bytes elsewhere. -/
theorem appendByte_buf (b : Byte) (s : State) (k : Nat) (hk : k < 64) :
    (appendByte b s).buf[k] = if k = s.bcnt.toNat then b else s.buf[k] := by
  have : (appendByte b s).buf = (bufWrite b s).buf := by
    rcases appendByte_cases b s with ⟨_, e⟩ | ⟨_, e⟩ <;> simp [e]
  simp [this, Vector.getElem_set, eq_comm]

/-! ### The byte loops -/

@[simp] theorem appendBytes_nil (s : State) : appendBytes [] s = s := rfl
@[simp] theorem appendBytes_cons (b : Byte) (bs : List Byte) (s : State) :
    appendBytes (b :: bs) s = appendBytes bs (appendByte b s) := rfl

theorem appendBytes_append (xs ys : List Byte) (s : State) :
    appendBytes (xs ++ ys) s = appendBytes ys (appendBytes xs s) := by
  induction xs generalizing s with
  | nil => rfl
  | cons b bs ih => simp [ih]

/-- The byte loop writes S, B, BCNT and BIDX and nothing else. -/
theorem appendBytes_frame (bs : List Byte) (s : State) :
    appendBytes bs s = { s with
      lanes := (appendBytes bs s).lanes, buf := (appendBytes bs s).buf,
      bcnt := (appendBytes bs s).bcnt, bidx := (appendBytes bs s).bidx } := by
  induction bs generalizing s with
  | nil => rfl
  | cons b bs ih =>
    rw [appendBytes_cons, ih, appendByte_frame]

theorem appendBytes_bcnt (bs : List Byte) (s : State) :
    (appendBytes bs s).bcnt.toNat = (s.bcnt.toNat + bs.length) % 64 := by
  induction bs generalizing s with
  | nil => have := s.bcnt.isLt; simp; omega
  | cons b bs ih => rw [appendBytes_cons, ih, appendByte_bcnt, List.length_cons]; omega

theorem appendBytes_bidx (bs : List Byte) (s : State) :
    (appendBytes bs s).bidx = s.bidx + BitVec.ofNat 32 ((s.bcnt.toNat + bs.length) / 64) := by
  induction bs generalizing s with
  | nil => have := s.bcnt.isLt; simp [show s.bcnt.toNat / 64 = 0 by omega]
  | cons b bs ih =>
    rw [appendBytes_cons, ih, appendByte_bcnt, appendByte_bidx, BitVec.add_assoc, ← BitVec.ofNat_add,
      List.length_cons]
    congr 2
    omega

@[simp] theorem absorbBytes_nil (s : State) : absorbBytes [] s = s := rfl
@[simp] theorem absorbBytes_cons (b : Byte) (bs : List Byte) (s : State) :
    absorbBytes (b :: bs) s = absorbBytes bs (appendByte b { s with abscnt := s.abscnt + 1 }) := rfl

/-- AppendByte does not read ABSCNT. -/
theorem appendByte_with_abscnt (b : Byte) (n : DWord) (s : State) :
    appendByte b { s with abscnt := n } = { appendByte b s with abscnt := n } := by
  rcases appendByte_cases b s with ⟨h, e⟩ | ⟨h, e⟩ <;> rw [e]
  · rw [appendByte_room b { s with abscnt := n } h]; rfl
  · rw [appendByte_full b { s with abscnt := n } h]; rfl

theorem appendBytes_with_abscnt (bs : List Byte) (n : DWord) (s : State) :
    appendBytes bs { s with abscnt := n } = { appendBytes bs s with abscnt := n } := by
  induction bs generalizing s with
  | nil => rfl
  | cons b bs ih => rw [appendBytes_cons, appendBytes_cons, appendByte_with_abscnt, ih]

/-- The absorb loop appends its bytes and counts them in ABSCNT. -/
theorem absorbBytes_eq (bs : List Byte) (s : State) :
    absorbBytes bs s = { appendBytes bs s with abscnt := s.abscnt + BitVec.ofNat 64 bs.length } := by
  induction bs generalizing s with
  | nil =>
    have h : ({ s with abscnt := s.abscnt + BitVec.ofNat 64 0 } : State) = s := by
      rw [show s.abscnt + BitVec.ofNat 64 0 = s.abscnt by simp]
    exact h.symm
  | cons b bs ih =>
    rw [absorbBytes_cons, ih, appendByte_with_abscnt, appendBytes_with_abscnt, appendBytes_cons]
    simp only [List.length_cons]
    congr 1
    rw [BitVec.add_assoc]
    congr 1
    rw [Nat.add_comm bs.length 1, BitVec.ofNat_add]
    rfl

/-! ### The port -/

/-- A step that answers a next state, by what the agenda and the port held. -/
theorem step_next_cases {s t : State} (h : step s = .next t) :
    s.cfg.ok = true ∧
    ((s.agenda = [] ∧ s.port = none ∧ t = s) ∨
     (s.agenda = [] ∧ ∃ cw, s.port = some cw ∧ stepWord cw { s with port := none } = .next t) ∨
     ∃ e rest, s.agenda = e :: rest ∧
      ((∃ cw, e = .present cw ∧ s.port = none ∧ t = { s with agenda := rest, port := some cw }) ∨
       (e = .withdraw ∧ s.port = none ∧ t = { s with agenda := rest }) ∨
       (e = .accept ∧ s.port = none ∧ t = { s with agenda := rest }) ∨
       (e = .accept ∧ ∃ cw, s.port = some cw ∧ stepWord cw { s with agenda := rest, port := none } = .next t) ∨
       (∃ i, e = .read i ∧ t = { s with agenda := rest, reads := s.reads ++ [readPort i s] }) ∨
       (e = .reset ∧ t = resetState { s with agenda := rest }))) := by
  unfold step advance at h
  split at h
  · rename_i hc
    refine ⟨hc, ?_⟩
    split at h
    · rename_i ha
      unfold acceptWord at h
      split at h
      · rename_i hp; cases h; exact .inl ⟨ha, hp, rfl⟩
      · rename_i cw hp; exact .inr (.inl ⟨ha, cw, hp, h⟩)
    · rename_i e rest ha
      refine .inr (.inr ⟨e, rest, ha, ?_⟩)
      cases e with
      | present cw =>
        simp only [handleEvent] at h
        split at h
        · rename_i hp; cases h; exact .inl ⟨cw, rfl, hp, rfl⟩
        · cases h
      | withdraw =>
        simp only [handleEvent] at h
        split at h
        · rename_i hp; cases h; exact .inr (.inl ⟨rfl, hp, rfl⟩)
        · cases h
      | accept =>
        simp only [handleEvent, acceptWord] at h
        split at h
        · rename_i hp; cases h; exact .inr (.inr (.inl ⟨rfl, hp, rfl⟩))
        · rename_i cw hp; exact .inr (.inr (.inr (.inl ⟨rfl, cw, hp, h⟩)))
      | read i =>
        cases h
        exact .inr (.inr (.inr (.inr (.inl ⟨i, rfl, rfl⟩))))
      | reset =>
        cases h
        exact .inr (.inr (.inr (.inr (.inr ⟨rfl, rfl⟩))))
  · cases h

end Sys2Proof.Laws
end

