-- ==== Sys2Proof/Laws/Append.lean ====
section
/-! SUPPORT. What a run of appended bytes leaves in B and S while the block is not full and when it is, and the bytes of
the framing suffix. -/

namespace Sys2Proof.Laws

open Sys2Proof.Machine

/-- The byte that fills the buffer, as one update of S, B, BIDX and BCNT. -/
theorem appendByte_full_eq (b : Byte) (s : State) (h : s.bcnt.toNat = 63) :
    appendByte b s = { s with
      buf := s.buf.set 63 b
      lanes := compress s.cfg s.lanes (schedule s.cfg (extract (s.buf.set 63 b))) s.bidx s.tbits
      bidx := s.bidx + 1
      bcnt := 0 } := by
  have hb : (bufWrite b s).buf = s.buf.set 63 b := by simp [h]
  rw [appendByte_full b s h]
  unfold processBlock blockStep
  rw [hb]; rfl

/-- Bytes that leave room stand in B from BCNT on, and S is as before. -/
theorem appendBytes_room (bs : List Byte) (s : State) (h : s.bcnt.toNat + bs.length < 64) :
    (appendBytes bs s).lanes = s.lanes ∧
      ∀ k (hk : k < 64), (appendBytes bs s).buf[k] =
        if h2 : s.bcnt.toNat ≤ k ∧ k - s.bcnt.toNat < bs.length then bs[k - s.bcnt.toNat]'h2.2 else s.buf[k] := by
  induction bs generalizing s with
  | nil => simp
  | cons b bs ih =>
    simp only [List.length_cons] at h
    have hb := appendByte_bcnt b s
    rw [Nat.mod_eq_of_lt (by omega)] at hb
    obtain ⟨h1, h2⟩ := ih (appendByte b s) (by omega)
    rw [appendBytes_cons]
    refine ⟨by rw [h1, appendByte_room b s (by omega)]; rfl, fun k hk => ?_⟩
    rw [h2 k hk, appendByte_buf b s k hk, hb]
    rcases Nat.lt_trichotomy k s.bcnt.toNat with hlt | heq | hgt
    · rw [dif_neg (by omega), if_neg (by omega), dif_neg (by omega)]
    · subst heq; rw [dif_neg (by omega), if_pos rfl, dif_pos (by simp)]; simp
    · by_cases hc : k - (s.bcnt.toNat + 1) < bs.length
      · rw [dif_pos ⟨by omega, hc⟩, dif_pos ⟨by omega, by simp; omega⟩]
        simp only [show k - s.bcnt.toNat = (k - (s.bcnt.toNat + 1)) + 1 by omega, List.getElem_cons_succ]
      · rw [dif_neg (by omega), if_neg (by omega), dif_neg (by simp; omega)]

/-- Bytes that fill the buffer exactly compress the one block they complete. -/
theorem appendBytes_fill (bs : List Byte) (s : State) (B : Block) (h : s.bcnt.toNat + bs.length = 64)
    (hB : ∀ k (hk : k < 64), B[k] = if h2 : s.bcnt.toNat ≤ k then bs[k - s.bcnt.toNat]'(by omega) else s.buf[k]) :
    appendBytes bs s = { s with
      buf := B
      lanes := compress s.cfg s.lanes (schedule s.cfg (extract B)) s.bidx s.tbits
      bidx := s.bidx + 1
      bcnt := 0 } := by
  have hlt := s.bcnt.isLt
  have hne : bs ≠ [] := by rintro rfl; simp at h; omega
  obtain ⟨xs, b, rfl⟩ : ∃ xs b, bs = xs ++ [b] :=
    ⟨bs.dropLast, bs.getLast hne, (List.dropLast_append_getLast hne).symm⟩
  simp only [List.length_append, List.length_singleton] at h
  obtain ⟨h1, h2⟩ := appendBytes_room xs s (by omega)
  have hbc : (appendBytes xs s).bcnt.toNat = 63 := by rw [appendBytes_bcnt]; omega
  have hbi := appendBytes_bidx xs s
  rw [show (s.bcnt.toNat + xs.length) / 64 = 0 by omega] at hbi
  simp at hbi
  rw [appendBytes_append, appendBytes_cons, appendBytes_nil, appendByte_full_eq _ _ hbc]
  have hbuf : (appendBytes xs s).buf.set 63 b = B := by
    apply Vector.ext
    intro k hk
    rw [Vector.getElem_set, hB k hk, h2 k hk]
    by_cases hk63 : k = 63
    · subst hk63; rw [if_pos rfl, dif_pos (by omega), List.getElem_append_right (by omega)]; simp
    · rw [if_neg (by omega)]
      by_cases hle : s.bcnt.toNat ≤ k
      · rw [dif_pos ⟨hle, by omega⟩, dif_pos hle, List.getElem_append_left]
      · rw [dif_neg (by omega), dif_neg hle]
  rw [hbuf, h1, hbi]
  conv_lhs => rw [appendBytes_frame]

@[simp] theorem be64bytes_length (t : DWord) : (be64bytes t).length = 8 := rfl

theorem framing_length (z : Nat) (t : DWord) : (framing z t).length = z + 9 := by simp [framing]

/-- The marker, the zeros, the length (40_padder_segmenter.md R100). -/
theorem framing_getElem (z : Nat) (t : DWord) (j : Nat) (hj : j < (framing z t).length) :
    (framing z t)[j] = if j = 0 then 0x80 else if j ≤ z then 0 else (be64bytes t).getD (j - (z + 1)) 0 := by
  have hj' := hj; rw [framing_length] at hj'
  simp only [framing]
  rcases j with _ | j
  · simp
  · simp only [List.cons_append, List.getElem_cons_succ]
    by_cases h : j < z
    · rw [List.getElem_append_left (by simpa using h)]; simp; omega
    · rw [List.getElem_append_right (by simpa using h)]
      rw [if_neg (by omega), if_neg (by omega)]
      rw [List.getD_eq_getElem _ _ (by rw [be64bytes_length]; omega)]
      simp

/-- One block holds the suffix of a message that leaves at most 55 bytes (R101). -/
theorem padZeros_of_le (n : Nat) (h : n ≤ 55) : padZeros n = 55 - n := by
  unfold padZeros; rw [Nat.mod_eq_of_lt (show n < 64 by omega)]
  have : 119 - n = (55 - n) + 64 := by omega
  rw [this, Nat.add_mod_right, Nat.mod_eq_of_lt (by omega)]

/-- Past 55 bytes the zeros run into one block more (R101). -/
theorem padZeros_of_gt (n : Nat) (h : 55 < n) (h2 : n < 64) : padZeros n = 119 - n := by
  unfold padZeros; rw [Nat.mod_eq_of_lt (show n < 64 by omega), Nat.mod_eq_of_lt (by omega)]

end Sys2Proof.Laws
end

