-- ==== Sys2Proof/Laws/Decode.lean ====
section
/-! SUPPORT. What the decoder's rows ask of a word, field by field. -/

namespace Sys2Proof.Laws

/-- A row of the opcode table whose mask keeps the bits from n up asks for its opcode and for zeros from bit n to 23. -/
theorem and_mask_eq_iff (cw : Word) (op : Byte) (n : Nat) (hn : n ≤ 24) :
    cw &&& (BitVec.allOnes 32 <<< n) = op.setWidth 32 <<< 24 ↔
      opcodeField cw = op ∧ cw.extractLsb' n (24 - n) = 0 := by
  have key : ∀ j, (cw &&& (BitVec.allOnes 32 <<< n)).getLsbD j = (decide (n ≤ j) && cw.getLsbD j) := by
    intro j
    rw [BitVec.getLsbD_and, BitVec.getLsbD_shiftLeft, BitVec.getLsbD_allOnes, Bool.and_comm]
    by_cases hj : j < 32
    · by_cases h : n ≤ j
      · simp [hj, show ¬ j < n by omega, show j - n < 32 by omega, h]
      · simp [show j < n by omega, h]
    · simp [hj, BitVec.getLsbD_of_ge cw j (by omega)]
  have kop : ∀ j, (op.setWidth 32 <<< 24).getLsbD j = (decide (24 ≤ j) && op.getLsbD (j - 24)) := by
    intro j
    by_cases h : 24 ≤ j
    · by_cases hj : j < 32
      · simp [hj, show ¬ j < 24 by omega, h]
      · simp [BitVec.getLsbD_of_ge _ j (show 32 ≤ j by omega), BitVec.getLsbD_of_ge op (j-24) (by omega)]
    · simp [show j < 24 by omega, h]
  constructor
  · intro h
    have hb : ∀ j, (decide (n ≤ j) && cw.getLsbD j) = (decide (24 ≤ j) && op.getLsbD (j - 24)) := by
      intro j; rw [← key, ← kop, h]
    constructor
    · refine BitVec.eq_of_getLsbD_eq fun j hj => ?_
      have := hb (j + 24)
      simp [show n ≤ j + 24 by omega] at this
      simp [opcodeField, hj, Nat.add_comm 24 j, this]
    · refine BitVec.eq_of_getLsbD_eq fun j hj => ?_
      have := hb (n + j)
      simp [show ¬ 24 ≤ n + j by omega] at this
      simp [this]
  · rintro ⟨rfl, h⟩
    refine BitVec.eq_of_getLsbD_eq fun j hj => ?_
    rw [key, kop]
    by_cases h1 : n ≤ j
    · by_cases h2 : 24 ≤ j
      · simp [h1, h2, opcodeField, show j - 24 < 8 by omega, show 24 + (j - 24) = j by omega]
      · have := congrArg (fun v => v.getLsbD (j - n)) h
        simp [show j - n < 24 - n by omega, show n + (j - n) = j by omega] at this
        simp [h1, h2, this]
    · simp [h1, show ¬ 24 ≤ j by omega]

theorem and_mask_nop (cw : Word) :
    cw &&& 0xFFFFFFFF = 0x00000000 ↔ opcodeField cw = 0 ∧ cw.extractLsb' 0 24 = 0 :=
  and_mask_eq_iff cw 0 0 (by omega)
theorem and_mask_start (cw : Word) :
    cw &&& 0xFFFFFFFF = 0x01000000 ↔ opcodeField cw = 1 ∧ cw.extractLsb' 0 24 = 0 :=
  and_mask_eq_iff cw 1 0 (by omega)
theorem and_mask_setlen (cw : Word) :
    cw &&& 0xFFFC0000 = 0x02000000 ↔ opcodeField cw = 2 ∧ cw.extractLsb' 18 6 = 0 :=
  and_mask_eq_iff cw 2 18 (by omega)
theorem and_mask_abs1 (cw : Word) :
    cw &&& 0xFFFFFF00 = 0x03000000 ↔ opcodeField cw = 3 ∧ cw.extractLsb' 8 16 = 0 :=
  and_mask_eq_iff cw 3 8 (by omega)
theorem and_mask_abs2 (cw : Word) :
    cw &&& 0xFFFF0000 = 0x04000000 ↔ opcodeField cw = 4 ∧ cw.extractLsb' 16 8 = 0 :=
  and_mask_eq_iff cw 4 16 (by omega)
theorem and_mask_abs3 (cw : Word) : cw &&& 0xFF000000 = 0x05000000 ↔ opcodeField cw = 5 := by
  have h := and_mask_eq_iff cw 5 24 (by omega)
  rw [show (cw.extractLsb' 24 (24 - 24) = 0) = True by simp] at h
  simpa using h
theorem and_mask_final (cw : Word) :
    cw &&& 0xFFFFFFFF = 0x06000000 ↔ opcodeField cw = 6 ∧ cw.extractLsb' 0 24 = 0 :=
  and_mask_eq_iff cw 6 0 (by omega)
theorem and_mask_clr (cw : Word) :
    cw &&& 0xFFFFFFFF = 0x07000000 ↔ opcodeField cw = 7 ∧ cw.extractLsb' 0 24 = 0 :=
  and_mask_eq_iff cw 7 0 (by omega)

/-- The decoder by opcode and reserved bits (30_encoding.md R76-R80). -/
theorem decode_eq_fields (cw : Word) : decode cw =
    if opcodeField cw = 0 ∧ cw.extractLsb' 0 24 = 0 then .cmd .nop
    else if opcodeField cw = 1 ∧ cw.extractLsb' 0 24 = 0 then .cmd .start
    else if opcodeField cw = 2 ∧ cw.extractLsb' 18 6 = 0 then .cmd (.setlen (chunkSelectField cw) (immField cw))
    else if opcodeField cw = 3 ∧ cw.extractLsb' 8 16 = 0 then .cmd (.abs1 (byteField0 cw))
    else if opcodeField cw = 4 ∧ cw.extractLsb' 16 8 = 0 then .cmd (.abs2 (byteField1 cw) (byteField0 cw))
    else if opcodeField cw = 5 then .cmd (.abs3 (byteField2 cw) (byteField1 cw) (byteField0 cw))
    else if opcodeField cw = 6 ∧ cw.extractLsb' 0 24 = 0 then .cmd .final
    else if opcodeField cw = 7 ∧ cw.extractLsb' 0 24 = 0 then .cmd .clr
    else if opcodeField cw ≤ 0x07 then .reservedNonzero (opcodeField cw)
    else .illegalOpcode (opcodeField cw) := by
  unfold decode spells
  simp only [beq_iff_eq, and_mask_nop, and_mask_start, and_mask_setlen,
    and_mask_abs1, and_mask_abs2, and_mask_abs3, and_mask_final, and_mask_clr]

end Sys2Proof.Laws
end

