-- ==== Sys2Proof/Laws/PerInstr.lean ====
section
/-! SUPPORT. The per-instruction family MatchMask: the word of a command meets its row of the opcode table
(30_encoding.md R76). -/

namespace Sys2Proof.Laws

/-- `match` of a command's row (R76). -/
def MatchMask.rowMatch : Instr → Word
  | .nop => 0x00000000
  | .start => 0x01000000
  | .setlen _ _ => 0x02000000
  | .abs1 _ => 0x03000000
  | .abs2 _ _ => 0x04000000
  | .abs3 _ _ _ => 0x05000000
  | .final => 0x06000000
  | .clr => 0x07000000

/-- `mask` of a command's row (R76). -/
def MatchMask.rowMask : Instr → Word
  | .nop => 0xFFFFFFFF
  | .start => 0xFFFFFFFF
  | .setlen _ _ => 0xFFFC0000
  | .abs1 _ => 0xFFFFFF00
  | .abs2 _ _ => 0xFFFF0000
  | .abs3 _ _ _ => 0xFF000000
  | .final => 0xFFFFFFFF
  | .clr => 0xFFFFFFFF

/-- The word of a command spells its row: `(CW & mask) == match`. -/
def MatchMask.Statement (i : Instr) : Prop := encode i &&& rowMask i = rowMatch i

theorem MatchMask.nop : MatchMask.Statement .nop := rfl
theorem MatchMask.start : MatchMask.Statement .start := rfl
theorem MatchMask.setlen (k : BitVec 2) (imm16 : BitVec 16) : MatchMask.Statement (.setlen k imm16) := by
  refine BitVec.eq_of_getLsbD_eq fun j hj => ?_
  interval_cases j <;> simp [rowMask, rowMatch, encode]
theorem MatchMask.abs1 (b0 : Byte) : MatchMask.Statement (.abs1 b0) := by
  refine BitVec.eq_of_getLsbD_eq fun j hj => ?_
  interval_cases j <;> simp [rowMask, rowMatch, encode]
theorem MatchMask.abs2 (b0 b1 : Byte) : MatchMask.Statement (.abs2 b0 b1) := by
  refine BitVec.eq_of_getLsbD_eq fun j hj => ?_
  interval_cases j <;> simp [rowMask, rowMatch, encode]
theorem MatchMask.abs3 (b0 b1 b2 : Byte) : MatchMask.Statement (.abs3 b0 b1 b2) := by
  refine BitVec.eq_of_getLsbD_eq fun j hj => ?_
  interval_cases j <;> simp [rowMask, rowMatch, encode]
theorem MatchMask.final : MatchMask.Statement .final := rfl
theorem MatchMask.clr : MatchMask.Statement .clr := rfl

end Sys2Proof.Laws
end

