-- ==== Sys2Proof/Laws/Safety.lean ====
section
/-! SUPPORT. What the invariant of the state reads, and what it gives in every phase. -/

namespace Sys2Proof.Laws

open Sys2Proof.Machine

/-- In every phase the counters are those of no message, of one in progress or of a finished one. -/
theorem counterInv_forms {s : State} (h : CounterInv s) : IdleCounters s ∨ AbsorbCounters s ∨ DoneCounters s := by
  unfold CounterInv at h
  split at h
  · exact .inl h
  · exact .inr (.inl h)
  · exact .inr (.inr h)
  · exact h

/-- The invariant reads ten fields: a state that agrees in them meets it too. -/
theorem stateInv_congr {s t : State} (h : StateInv s) (hphase : t.phase = s.phase) (hbcnt : t.bcnt = s.bcnt)
    (hlen : t.len = s.len) (habscnt : t.abscnt = s.abscnt) (hbidx : t.bidx = s.bidx) (htbits : t.tbits = s.tbits)
    (herrcode : t.errcode = s.errcode) (hdrop : t.drop = s.drop) (herrinfo : t.errinfo = s.errinfo)
    (hdigest : t.digest = s.digest) : StateInv t := by
  unfold StateInv CounterInv IdleCounters AbsorbCounters DoneCounters ErrorInv DigestInv at *
  rw [hphase, hbcnt, hlen, habscnt, hbidx, htbits, herrcode, hdrop, herrinfo, hdigest]
  exact h

end Sys2Proof.Laws
end

