-- ==== Sys2Proof/Tests/Slice0.lean ====
section
/-! SUPPORT. Tests against the vectors of 95_test_vectors.md and the formats of 30_encoding.md, and a witness for the
hypotheses of every statement. -/

namespace Sys2Proof.Tests

open Sys2Proof.Machine

/-! ### Helpers -/

/-- What a next state shows; none for a fault or a refusal. -/
def shows {α : Type} (o : Host.Outcome State Fault Refusal) (f : State → α) : Option α :=
  match o with
  | .next t => some (f t)
  | .fault _ => none
  | .refused _ => none

/-- STATUS and ERRINFO of a state. -/
def statusAndInfo (s : State) : Word × Word := (statusWord s, s.errinfo)

/-- A message in progress: LEN, and the bytes absorbed, all zero and fewer than 64. -/
def absorbing (len held : Nat) : State :=
  { State.reset with
    len := BitVec.ofNat 64 len
    abscnt := BitVec.ofNat 64 held
    bcnt := BitVec.ofNat 6 held
    tbits := BitVec.ofNat 64 (8 * len)
    lanes := refCfg.iv
    phase := .absorb }

/-- The state before FINAL of program P2: "abc" is absorbed. -/
def abcAbsorbed : State :=
  { absorbing 3 3 with buf := ((State.reset.buf.set 0 0x61).set 1 0x62).set 2 0x63 }

/-- DONE, with a declared and absorbed length of 3. -/
def afterMessage : State :=
  { State.reset with phase := .done, len := 3, abscnt := 3, bidx := 1, tbits := 24, digest := ⟨1, 2, 3, 4⟩ }

/-- ERROR, as an illegal opcode leaves it. -/
def inError : State := { State.reset with phase := .error, errcode := 1, errinfo := 0x08000000 }

/-- A word held at the port, and what happens next. -/
def holding (cw : Word) (a : List Event) : State := { State.reset with port := some cw, agenda := a }

/-! ### The checks refuse an ill-formed term -/

theorem test_ref_is_well_formed : refCfg.ok = true := by decide
theorem test_equal_iv_entries_refused : { refCfg with iv := ⟨7, 8, 9, 7⟩ }.ivDistinct = false := by decide
theorem test_rotate_32_refused : { refCfg with dsR3 := 32 }.rotatesInRange = false := by decide
theorem test_rotate_32_in_table_refused :
    { refCfg with saRot := refCfg.saRot.set 15 32 }.rotatesInRange = false := by decide
theorem test_even_multiplier_refused : { refCfg with m2 := 0xC2B2AE34 }.constantsOdd = false := by decide
theorem test_bad_cfg_stops_the_machine :
    step { State.reset with cfg := { refCfg with fk2 := 0 } } = .refused .invalidConfig := by rfl
theorem test_asm_chunk_4_refused : (AsmLine.setlen 4 0).wellFormed = false := by decide
theorem test_asm_imm_65536_refused : (AsmLine.setlen 0 65536).wellFormed = false := by decide
theorem test_asm_abs1_256_refused : (AsmLine.abs1 256).wellFormed = false := by decide
theorem test_asm_abs2_256_refused : (AsmLine.abs2 0 256).wellFormed = false := by decide
theorem test_asm_abs3_256_refused : (AsmLine.abs3 0 256 0).wellFormed = false := by decide

/-! ### Decoding: words written bit by bit from the formats R71-R74 -/

/-- Format N: OP, then 24 zeros. -/
theorem test_decode_nop : decode 0b00000000_000000000000000000000000 = .cmd .nop := by decide
theorem test_decode_start : decode 0b00000001_000000000000000000000000 = .cmd .start := by decide
theorem test_decode_final : decode 0b00000110_000000000000000000000000 = .cmd .final := by decide
theorem test_decode_clr : decode 0b00000111_000000000000000000000000 = .cmd .clr := by decide
/-- Format L: OP, six zeros, K, IMM16. -/
theorem test_decode_setlen : decode 0b00000010_000000_10_1010101111001101 = .cmd (.setlen 2 0xABCD) := by decide
/-- Format B1: OP, 16 zeros, B0. -/
theorem test_decode_abs1 : decode 0b00000011_0000000000000000_10000001 = .cmd (.abs1 0x81) := by decide
/-- Format B2: OP, 8 zeros, B0, B1. -/
theorem test_decode_abs2 : decode 0b00000100_00000000_01101000_11101001 = .cmd (.abs2 0x68 0xE9) := by decide
/-- Format B3: OP, B0, B1, B2. -/
theorem test_decode_abs3 : decode 0b00000101_11100001_01100010_00000011 = .cmd (.abs3 0xE1 0x62 0x03) := by decide
/-- The lowest reserved bit of SETLEN, CW[18]. -/
theorem test_decode_setlen_reserved : decode 0x02040000 = .reservedNonzero 0x02 := by decide
theorem test_decode_abs1_reserved : decode 0x03000100 = .reservedNonzero 0x03 := by decide
theorem test_decode_abs2_reserved : decode 0x04010000 = .reservedNonzero 0x04 := by decide
theorem test_decode_clr_reserved : decode 0x07000001 = .reservedNonzero 0x07 := by decide
theorem test_decode_first_illegal : decode 0x08000000 = .illegalOpcode 0x08 := by decide
theorem test_decode_last_illegal : decode 0xFFFFFFFF = .illegalOpcode 0xFF := by decide
theorem test_decode_table_word : decodeTableWord 32 0x05616263 = some (.abs3 0x61 0x62 0x63) := by decide
theorem test_decode_table_refused : decodeTableWord 32 0x08000000 = none := by decide

/-! ### The assembler (R82, R83) -/

theorem test_assemble_abs3 :
    assemble "abs3 'a', 0x62, 99 ; three bytes".toList = .word 0x05616263 := by decide
theorem test_assemble_setlen : assemble "  SETLEN 3,0xABCD".toList = .word 0x0203ABCD := by decide
theorem test_assemble_out_of_range : assemble "ABS1 256".toList = .rejected := by decide
theorem test_assemble_comment_line : assemble " ; nothing".toList = .nothing := by decide
/-- Program P3's ABS2 and ABS3 for 5 bytes. -/
theorem test_pseudo_absorb :
    (absorbAll [0x61, 0x62, 0x63, 0x68, 0x69]).map encode = [0x05616263, 0x04006869] := by decide
/-- Row C3 of V9. -/
theorem test_pseudo_len64 :
    (len64 0xFFFFFFFFFFFFFFFF).map encode = [0x0200FFFF, 0x0201FFFF, 0x0202FFFF, 0x0203FFFF] := by decide

/-! ### The pipeline: V1 to V8 -/

theorem test_pad_zeros : [0, 1, 3, 55, 56, 63, 64, 119, 120].map padZeros = [55, 54, 52, 0, 63, 56, 55, 0, 63] := by
  decide
theorem test_num_blocks : [0, 1, 3, 55, 56, 63, 64, 119, 120].map numBlocks = [1, 1, 1, 1, 2, 2, 2, 2, 3] := by
  decide
theorem test_pad_tail_of_56 :
    (pad (List.replicate 56 0)).drop 120 = [0x00, 0x00, 0x00, 0x00, 0x00, 0x00, 0x01, 0xC0] := by decide
theorem test_segment_63_faults : Machine.segment (List.replicate 63 0) = .error .segmentAlign := by rfl
theorem test_extract_counts :
    ((extract (Vector.ofFn fun k : Fin 64 => BitVec.ofNat 8 k.val)).toList.take 2) = [0x00010203, 0x04050607] := by
  decide
theorem test_stageA_indices :
    (stageA refCfg (Vector.ofFn fun i : Fin 16 => BitVec.ofNat 32 i.val)).toList =
      [0x3C6EF485, 0x1BBD1F4F, 0x3375C6D5, 0xE8F378DD, 0x65C2E2AC, 0xA6D53375, 0x29C22BD2, 0x377A39FE,
        0xCD302A3F, 0x63229715, 0x080CC624, 0x76D53375, 0x82344D3D, 0x708AF31A, 0x8052D88A, 0xE6E9F8DD] := by
  decide +kernel
theorem test_quarter_round :
    (quarterRound (Vector.ofFn fun i : Fin 16 =>
      [0x11111111, 0x01020304, 0x9B8D6F43, 0x01234567].getD i.val 0) 0 1 2 3).toList.take 4 =
      [0xEA2A92F4, 0xCB1CF8CE, 0x4581472E, 0x5881C4BB] := by decide +kernel
theorem test_column_round :
    (columnRound (Vector.ofFn fun i : Fin 16 => BitVec.ofNat 32 i.val)).toList =
      [0x8000C004, 0xB000C006, 0x6000C008, 0x5000C00A, 0x64624444, 0xE5E35CDD, 0x63643533, 0xE2E52DAA,
        0x08C80488, 0x0BCB06B9, 0x06C6086A, 0x05C50A5B, 0x08C00480, 0x0BC006B0, 0x06C00860, 0x05C00A50] := by
  decide +kernel
theorem test_stageB_indices :
    (stageB (Vector.ofFn fun i : Fin 16 => BitVec.ofNat 32 i.val)).toList =
      [0xE4BBED90, 0x84F97BA1, 0x75AB03C7, 0x0DE0B699, 0x2E8FA04A, 0x67139BA3, 0x8C200866, 0xE37B184C,
        0x74448556, 0x30DCF3C7, 0x82F2C02A, 0x15500E22, 0xD1E866A5, 0x07CA2D32, 0x19C700EC, 0xDB0A1DF0] := by
  decide +kernel
theorem test_roundMix_zero :
    roundMix refCfg ⟨0, 0, 0, 0⟩ ⟨0, 0, 0, 0⟩ refCfg.kfA refCfg.kfB =
      ⟨0x207D9F3A, 0xF850B043, 0x4E796733, 0x338C4B74⟩ := by decide
theorem test_domSep_iv :
    domSep refCfg refCfg.iv 5 0x0000000100000018 = ⟨0x6745231C, 0xEFCDAB88, 0x65DCF85A, 0x961904B3⟩ := by decide
theorem test_scramble_iv :
    scramble refCfg refCfg.iv = ⟨0xD2341EF8, 0xB2A3D4C5, 0x3056FC9A, 0x780FA5D2⟩ := by decide
theorem test_compress_zero :
    compress refCfg ⟨0, 0, 0, 0⟩ (Vector.replicate 16 0) 0 0 =
      ⟨0xB0D7F441, 0x3DCB47B4, 0x32A0F6A7, 0x8E5B87BE⟩ := by decide +kernel
theorem test_aval :
    [0x00000000, 0x00000001, 0x80000000, 0xFFFFFFFF, 0x12345678, 0x61626380].map (aval refCfg) =
      [0x00000000, 0x514E28B7, 0x6D3C65A0, 0x81F16F39, 0xE37CD1BC, 0x1C569924] := by decide
theorem test_finalize_zero :
    finalize refCfg ⟨0, 0, 0, 0⟩ 24 = ⟨0x94BF2A81, 0xBB1CEACD, 0x274589FB, 0xAC6B679F⟩ := by decide
theorem test_digest_text :
    digestText ⟨0xD556CDAB, 0x9FBD572E, 0xAD088C03, 0x13718B30⟩ = "d556cdab9fbd572ead088c0313718b30".toList := by
  decide

/-! ### Commands: V9 and the programs, one step each -/

/-- C1, and a NOP in ERROR (program P3). -/
theorem test_nop : shows (stepWord 0x00000000 State.reset) statusAndInfo = some (0, 0) := by decide
theorem test_nop_in_error :
    shows (stepWord 0x00000000 inError) statusAndInfo = some (0x0000011B, 0x08000000) := by decide
/-- C4, and START in ABSORB (C14). -/
theorem test_start :
    shows (stepWord 0x01000000 afterMessage) (fun t => (statusWord t, t.len, t.tbits, t.digest, t.lanes)) =
      some (1, 3, 24, ⟨0, 0, 0, 0⟩, refCfg.iv) := by decide
theorem test_start_in_absorb :
    shows (stepWord 0x01000000 (absorbing 0 0)) statusAndInfo = some (0x0000030B, 0x01000000) := by decide
/-- C2, with the other chunks kept, and C15. -/
theorem test_setlen :
    shows (stepWord 0x0203ABCD { State.reset with len := 0x1111222233334444 }) (fun t => t.len) =
      some 0xABCD222233334444 := by decide
theorem test_setlen_in_absorb :
    shows (stepWord 0x02000001 (absorbing 0 0)) (fun t => (statusAndInfo t, t.len)) =
      some ((0x0000030B, 0x02000001), 0) := by decide
/-- The byte is placed and counted; C21. -/
theorem test_abs1 :
    shows (stepWord 0x03000080 (absorbing 9 5)) (fun t => (t.buf[5], t.bcnt, t.abscnt, t.bidx)) =
      some (0x80, 6, 6, 0) := by decide
theorem test_abs1_overrun :
    shows (stepWord 0x03000000 (absorbing 0 0)) (fun t => (statusAndInfo t, t.abscnt, t.bcnt)) =
      some ((0x0000040B, 0x03000000), 0, 0) := by decide
/-- Program P6's ABS2: the block is compressed after its first byte; C22. -/
theorem test_abs2_block_boundary :
    shows (stepWord 0x04003F40 (absorbing 65 63)) (fun t => (t.abscnt, t.bcnt, t.bidx, t.buf[63], t.buf[0])) =
      some (65, 1, 1, 0x3F, 0x40) := by decide +kernel
theorem test_abs2_overrun :
    shows (stepWord 0x04006162 (absorbing 1 0)) (fun t => (statusAndInfo t, t.abscnt)) =
      some ((0x0000040B, 0x04006162), 0) := by decide
/-- C28's last word; the overrun of program P3. -/
theorem test_abs3_block_boundary :
    shows (stepWord 0x05AABBCC (absorbing 65 62))
      (fun t => (statusWord t, t.abscnt, t.bidx, t.bcnt, t.buf[0])) = some (1, 65, 1, 1, 0xCC) := by decide +kernel
theorem test_abs3_overrun :
    shows (stepWord 0x05686921 (absorbing 2 0)) statusAndInfo = some (0x0000040B, 0x05686921) := by decide
/-- Program P2's FINAL; C23. -/
theorem test_final_abc :
    shows (stepWord 0x06000000 abcAbsorbed) (fun t => (statusWord t, t.lanes, t.digest, t.bidx, t.bcnt)) =
      some (6, ⟨0x195ABFFC, 0xD6A647EA, 0xED090A30, 0x9395817B⟩,
        ⟨0xD556CDAB, 0x9FBD572E, 0xAD088C03, 0x13718B30⟩, 1, 0) := by decide +kernel
theorem test_final_underrun :
    shows (stepWord 0x06000000 (absorbing 3 2)) (fun t => (statusAndInfo t, t.abscnt, t.bcnt)) =
      some ((0x0000050B, 0x06000000), 2, 2) := by decide
/-- C27 and C26. -/
theorem test_clr_in_absorb :
    shows (stepWord 0x07000000 (absorbing 5 3)) (fun t => (statusAndInfo t, t.len, t.abscnt, t.bcnt)) =
      some ((0, 0), 5, 0, 0) := by decide
theorem test_clr_in_error : shows (stepWord 0x07000000 inError) statusAndInfo = some (0, 0) := by decide

/-- C5, C12, C16, C18, C19, C24, C25. -/
theorem test_reserved_bit :
    shows (stepWord 0x0003ABCD State.reset) statusAndInfo = some (0x0000020B, 0x0003ABCD) := by decide
theorem test_illegal_opcode :
    shows (stepWord 0x08000000 State.reset) statusAndInfo = some (0x0000010B, 0x08000000) := by decide
theorem test_abs1_in_idle :
    shows (stepWord 0x03000041 State.reset) statusAndInfo = some (0x0000030B, 0x03000041) := by decide
theorem test_reserved_beats_phase :
    shows (stepWord 0x03000100 State.reset) statusAndInfo = some (0x0000020B, 0x03000100) := by decide
theorem test_final_in_idle :
    shows (stepWord 0x06000000 State.reset) statusAndInfo = some (0x0000030B, 0x06000000) := by decide
theorem test_word_in_error :
    shows (stepWord 0xFF000000 inError) statusAndInfo = some (0x0000011B, 0x08000000) := by decide
theorem test_clr_with_reserved_bit_in_error :
    shows (stepWord 0x07000001 inError) statusAndInfo = some (0x0000011B, 0x08000000) := by decide

/-! ### The ports -/

/-- Reads after reset. -/
theorem test_reads_after_reset :
    [0, 1, 2, 3, 4, 5, 6, 7, 8, 9, 10, 11, 12, 13, 255].map (fun i => readPort i State.reset) =
      [0x44504331, 0, 0, 0, 0, 0, 0, 0, 0, 0, 0, 0, 0, 0, 0] := by decide
theorem test_fetch_word_runs : shows (step (State.reset.withFetchWord 32 0x01000000)) statusWord = some 1 := by decide
theorem test_held_word_waits :
    shows (step (holding 0x01000000 [.read 1])) (fun t => (t.port, t.reads)) = some (some 0x01000000, [0]) := by
  decide
theorem test_reset_drops_held_word :
    shows (step { holding 0x01000000 [.reset] with len := 9 }) (fun t => (t.port, t.len)) = some (none, 0) := by
  decide

/-! ### Witnesses: a state and operands that meet the hypotheses of each statement -/

theorem witness_EncodeOfDecoded : decode 0x0203ABCD = .cmd (.setlen 3 0xABCD) := by decide
theorem witness_DecoderRejectsByName_illegal : 0x08 ≤ opcodeField 0x08000000 := by decide
theorem witness_DecoderRejectsByName_reserved :
    ReservedBitSet 0x06800000 ∧ ReservedBitSet 0x02040000 ∧ ReservedBitSet 0x03800000 ∧ ReservedBitSet 0x04010000 := by
  unfold ReservedBitSet; decide
theorem witness_StepRunsTheDecodedCommand :
    (holding 0x06000000 [.accept, .read 1]).cfg.ok = true ∧
      (holding 0x06000000 [.accept, .read 1]).port = some 0x06000000 ∧ decode 0x06000000 = .cmd .final ∧
      (holding 0x06000000 [.accept, .read 1]).agenda = .accept :: [.read 1] ∧
      (holding 0x06000000 []).agenda = [] := by
  refine ⟨by decide, rfl, by decide, rfl, rfl⟩
theorem witness_StepRunsTheHeldWord : State.reset.cfg.ok = true ∧ (0xFFFFFFFF : Nat) < 2 ^ 32 := by decide
theorem witness_InvalidConfigurationIsRefused :
    step { State.reset with cfg := { refCfg with saR1 := 32 } } = .refused .invalidConfig := by rfl
theorem witness_StepNeverFaultsAndRefusesOnlyByName :
    step (holding 0 [.present 1]) = .refused .handshakeBroken ∧
      step (holding 0 [.withdraw]) = .refused .handshakeBroken := ⟨by rfl, by rfl⟩
theorem witness_HeldWordIsNeverLost :
    (holding 7 [.read 0]).port = some 7 ∧ shows (step (holding 7 [.read 0])) State.port = some (some 7) ∧
      shows (step (holding 7 [.reset])) State.port = some none ∧
      shows (step (holding 7 [])) State.port = some none := by decide
theorem witness_IdleCoreKeepsItsState :
    State.reset.cfg.ok = true ∧ State.reset.port = none ∧ State.reset.agenda = [] := by decide
theorem witness_ReadHasNoSideEffect :
    { State.reset with agenda := [.read 13] }.cfg.ok = true ∧ 13 ≤ (13 : BitVec 8).toNat ∧
      13 ≤ (255 : BitVec 8).toNat ∧ ¬ 13 ≤ (12 : BitVec 8).toNat := by decide
theorem witness_ResetTakesEveryFieldToItsResetValue :
    (holding 7 [.reset]).cfg.ok = true ∧ (holding 7 [.reset]).agenda = .reset :: [] := by decide
theorem witness_ReadMap :
    (∃ i : BitVec 8, 13 ≤ i.toNat) ∧ readPort 12 afterMessage = 4 ∧ readPort 13 afterMessage = 0 :=
  ⟨⟨13, by decide⟩, by decide, by decide⟩
theorem witness_ReadsCannotSeeHiddenState : SameReadable State.reset { State.reset with tbits := 8 } :=
  ⟨State.reset.lanes, State.reset.buf, 8, rfl⟩
theorem witness_IllegalOpcodeRaises :
    0x08 ≤ opcodeField 0x08000000 ∧ 0x08 ≤ opcodeField 0xFF000000 ∧ inError.phase = .error := by decide
theorem witness_ReservedBitRaises :
    State.reset.phase ≠ .error ∧ ReservedBitSet 0x00000001 ∧ opcodeField 0x00000001 < 0x08 ∧
      decode 0x00000001 = .reservedNonzero 0 := by
  unfold ReservedBitSet; decide
theorem witness_BadPhaseRaises :
    (absorbing 0 0).phase = .absorb ∧ State.reset.phase = .idle ∧ afterMessage.phase = .done ∧
      isAbsorb (.abs1 0) = true ∧ isAbsorb (.abs2 0 0) = true ∧ isAbsorb (.abs3 0 0 0) = true := by decide
/-- One byte too many for each of ABS1, ABS2 and ABS3. -/
theorem witness_OverrunRaises :
    (absorbing 3 3).phase = .absorb ∧ (absorbing 3 3).abscnt.toNat + 1 > (absorbing 3 3).len.toNat ∧
      (absorbing 3 2).abscnt.toNat + 2 > (absorbing 3 2).len.toNat ∧
      (absorbing 3 1).abscnt.toNat + 3 > (absorbing 3 1).len.toNat := by decide
theorem witness_ErrorEntryIsPrecise :
    State.reset.phase ≠ .error ∧ shows (stepWord 0x08000000 State.reset) State.phase = some .error ∧
      State.reset.drop = false := by decide
theorem witness_ErrorPhaseDiscards : inError.phase = .error ∧ (0x07000001 : Word) ≠ 0x07000000 := by decide
theorem witness_NopChangesNothing :
    State.reset.phase ≠ .error ∧ inError.phase = .error ∧ opcodeField 0x00000001 = 0x00 ∧
      (0x00000001 : Word).extractLsb' 0 24 ≠ 0 := by decide
theorem witness_StartBeginsMessage :
    State.reset.phase = .idle ∧ afterMessage.phase = .done ∧ (absorbing 0 0).phase = .absorb ∧
      opcodeField 0x01800000 = 0x01 ∧ (0x01800000 : Word).extractLsb' 0 24 ≠ 0 ∧ State.reset.len = 0 ∧
      shows (exec .start State.reset) State.phase = some .absorb := by decide
theorem witness_SetlenWritesOneChunk :
    State.reset.phase = .idle ∧ (absorbing 0 0).phase = .absorb ∧ opcodeField 0x02040000 = 0x02 ∧
      (0x02040000 : Word).extractLsb' 18 6 ≠ 0 := by decide
theorem witness_ClrClearsAllButLen :
    shows (exec .clr inError) statusWord = some 0 ∧ opcodeField 0x07000001 = 0x07 ∧
      (0x07000001 : Word).extractLsb' 0 24 ≠ 0 := by decide
theorem witness_PseudoInstructionsExpand :
    (State.reset.phase = .idle ∨ State.reset.phase = .done) ∧ (absorbAll [0x61]).length = 1 := by decide
/-- The last byte that leaves room, and the byte that fills the buffer. -/
theorem witness_Abs1AppendsOneByte :
    (absorbing 63 62).phase = .absorb ∧ (absorbing 63 62).abscnt.toNat + 1 ≤ (absorbing 63 62).len.toNat ∧
      (absorbing 63 62).bcnt.toNat < 63 ∧ (absorbing 64 63).phase = .absorb ∧
      (absorbing 64 63).abscnt.toNat + 1 ≤ (absorbing 64 63).len.toNat ∧ (absorbing 64 63).bcnt.toNat = 63 := by
  decide
theorem witness_Abs2AppendsTwoBytes :
    (absorbing 65 63).phase = .absorb ∧ (absorbing 65 63).abscnt.toNat + 2 ≤ (absorbing 65 63).len.toNat := by decide
theorem witness_Abs3AppendsThreeBytes :
    (absorbing 65 62).phase = .absorb ∧ (absorbing 65 62).abscnt.toNat + 3 ≤ (absorbing 65 62).len.toNat := by decide
theorem witness_AbsorbFrame :
    isAbsorb (.abs2 1 2) = true ∧ (shows (exec (.abs2 1 2) (absorbing 9 5)) State.bcnt) = some 7 ∧
      ∀ q < (messageBytes (.abs2 1 2)).length, 7 ≠ ((absorbing 9 5).bcnt.toNat + q) % 64 := by decide
/-- 55 and 56 bytes held, where one block turns into two, and one byte short. -/
theorem witness_FinalCompletesTheMessage :
    (absorbing 55 55).phase = .absorb ∧ (absorbing 55 55).len.toNat ≤ (absorbing 55 55).abscnt.toNat ∧
      (absorbing 55 55).bcnt.toNat ≤ 55 ∧ (absorbing 56 56).phase = .absorb ∧
      (absorbing 56 56).len.toNat ≤ (absorbing 56 56).abscnt.toNat ∧ 55 < (absorbing 56 56).bcnt.toNat ∧
      (absorbing 4 3).phase = .absorb ∧ (absorbing 4 3).abscnt.toNat < (absorbing 4 3).len.toNat ∧
      State.reset.phase = .idle ∧ opcodeField 0x06000001 = 0x06 ∧ (0x06000001 : Word).extractLsb' 0 24 ≠ 0 := by decide
theorem witness_OnlySetlenWritesLen :
    (∃ t, exec .start afterMessage = .next t) ∧ ∀ k imm16, Instr.start ≠ .setlen k imm16 :=
  ⟨⟨_, rfl⟩, fun _ _ h => nomatch h⟩
theorem witness_DigestRegisterLifetime :
    shows (exec .start afterMessage) State.digest = some ⟨0, 0, 0, 0⟩ ∧
      shows (exec .start (absorbing 0 0)) State.phase = some .error ∧
      shows (exec (.setlen 0 0) afterMessage) State.digest = some ⟨1, 2, 3, 4⟩ := by decide
theorem witness_BitLengthIsLatched :
    (∃ t, exec .start afterMessage = .next t) ∧ shows (exec .start afterMessage) State.tbits = some 24 ∧
      shows (exec .clr (absorbing 3 2)) State.tbits = some 0 :=
  ⟨⟨_, rfl⟩, by decide, by decide⟩
theorem witness_PhaseChanges :
    shows (exec .clr inError) State.phase = some .idle ∧ shows (exec .nop inError) State.phase = some .error ∧
      shows (exec .start afterMessage) State.phase = some .absorb := by decide
theorem witness_BlockIndexCountsCompressions :
    (∃ t, exec (.abs1 7) (absorbing 9 5) = .next t) ∧ Instr.abs1 7 ≠ .start ∧ Instr.abs1 7 ≠ .clr ∧
      blocksRun (.abs1 7) (absorbing 9 5) = 0 ∧ blocksRun (.abs1 7) (absorbing 64 63) = 1 ∧
      blocksRun .final (absorbing 55 55) = 1 ∧ blocksRun .final (absorbing 56 56) = 2 :=
  ⟨⟨_, rfl⟩, by decide, by decide, by decide, by decide, by decide, by decide⟩

/-- A message in progress meets the invariant, and so does ERROR. -/
theorem witness_StepKeepsTheInvariant :
    StateInv { absorbing 3 2 with port := some 0x03000041 } ∧ StateInv inError ∧
      ∃ t, step { absorbing 3 2 with port := some 0x03000041 } = .next t := by
  refine ⟨⟨⟨by decide, by decide, by decide, by decide⟩, ⟨rfl, rfl, rfl⟩, fun _ => rfl⟩,
    ⟨.inl ⟨rfl, rfl, rfl⟩, ⟨by decide, by decide⟩, fun h => by cases h <;> contradiction⟩, _, rfl⟩
theorem witness_StepKeepsTheConfiguration : ∃ t, step (holding 0 [.reset]) = .next t := ⟨_, rfl⟩
/-- FINAL of an empty message; in ABSORB and in DONE, a step that is no SETLEN in DONE. -/
theorem witness_AbscntCountsAndStaysWithinLen :
    StateInv (absorbing 0 0) ∧ shows (exec .final (absorbing 0 0)) State.phase = some .done ∧
      AbscntWithinLen (absorbing 0 0) ∧ ¬ SetlenDueInDone (absorbing 0 0) ∧
      StateInv { afterMessage with port := some 0x01000000 } ∧
      AbscntWithinLen { afterMessage with port := some 0x01000000 } ∧
      ¬ SetlenDueInDone { afterMessage with port := some 0x01000000 } ∧
      ∃ t, step { afterMessage with port := some 0x01000000 } = .next t := by
  refine ⟨⟨⟨by decide, by decide, by decide, by decide⟩, ⟨rfl, rfl, rfl⟩, fun _ => rfl⟩, by decide +kernel,
    by unfold AbscntWithinLen; decide, (fun h => nomatch h.1),
    ⟨⟨by decide, by decide, by decide⟩, ⟨rfl, rfl, rfl⟩, fun h => by cases h <;> contradiction⟩,
    by unfold AbscntWithinLen; decide, ?_, _, rfl⟩
  rintro ⟨_, _, cw, k, imm16, hp, hd⟩
  cases hp
  exact nomatch (show decode 0x01000000 = .cmd .start by decide).symm.trans hd
theorem witness_SetlenInDoneCanPassBelowAbscnt :
    StateInv afterMessage ∧ afterMessage.phase = .done ∧ afterMessage.abscnt.toNat ≤ afterMessage.len.toNat :=
  ⟨⟨⟨by decide, by decide, by decide⟩, ⟨rfl, rfl, rfl⟩, fun h => by cases h <;> contradiction⟩, rfl, by decide⟩
/-- B[63] is stale while 5 bytes are held. -/
theorem witness_StaleBytesAreNeverRead :
    SameButStale (absorbing 9 5) { absorbing 9 5 with buf := (absorbing 9 5).buf.set 63 0xFF } ∧
      ∃ t, exec (.abs1 7) (absorbing 9 5) = .next t :=
  ⟨⟨_, rfl, by decide⟩, _, rfl⟩
theorem witness_StartForgetsThePast :
    (afterMessage.phase = .idle ∨ afterMessage.phase = .done) ∧ ∃ t, exec .start afterMessage = .next t :=
  ⟨by decide, _, rfl⟩
theorem witness_PaddingIsLeast : 0 < padZeros 0 ∧ 62 < padZeros 56 ∧ padZeros 55 = 0 := by decide
theorem witness_SegmentCutsWholeBlocksOnly :
    (List.replicate 64 (0 : Byte)).length % 64 = 0 ∧ (List.replicate 65 (0 : Byte)).length % 64 ≠ 0 := by decide
/-- The arrays differ at index 2 only, and output 0 reads 0, 1 and 9. -/
theorem witness_StageAReadsThreeWords :
    let w : Words := Vector.replicate 16 0
    let w' : Words := w.set 2 1
    w[0] = w'[0] ∧ w[1] = w'[1] ∧ w[9] = w'[9] ∧ w[2] ≠ w'[2] := by decide
theorem witness_FinalizeIsABijection : refCfg.ok = true := by decide
theorem witness_AbsorbExtendsTheMessage :
    Absorbed [] (absorbing 2 0) ∧ isAbsorb (.abs2 1 2) = true ∧
      ([] : List Byte).length + (messageBytes (.abs2 1 2)).length ≤ (absorbing 2 0).len.toNat := by
  unfold Absorbed; decide
theorem witness_FinalOfAbsorbedIsTheDigest :
    Absorbed [0x61, 0x62, 0x63] abcAbsorbed ∧ ([0x61, 0x62, 0x63] : List Byte).length = abcAbsorbed.len.toNat := by
  unfold Absorbed; decide
theorem witness_CommandMachineComputesTheDigest :
    (State.reset.phase = .idle ∨ State.reset.phase = .done) ∧ ([0x61, 0x62, 0x63] : List Byte).length < 2 ^ 64 ∧
      (∀ i ∈ [Instr.abs1 0x61, .abs2 0x62 0x63], isAbsorb i = true) ∧
      [Instr.abs1 0x61, .abs2 0x62 0x63].flatMap messageBytes = [0x61, 0x62, 0x63] := by decide
theorem witness_CleanLaunchOfHashReturnsTheDigest :
    State.reset.cfg.ok = true ∧ Clean State.reset ∧ ([0x61] : List Byte).length < 2 ^ 64 := by
  unfold Clean; decide

end Sys2Proof.Tests
end

section
/-! SUPPORT. Proofs of the statements of 10_state.md: the reset values (R39) and the read map (R35). -/

namespace Sys2Proof.Proofs

open Sys2Proof.Machine

/-- Every byte of the block buffer is 0 after reset (10_state.md R39). -/
@[simp] theorem reset_buf_getElem (k : Nat) (hk : k < 64) : State.reset.buf[k] = 0 :=
  Vector.getElem_replicate hk

/-- The reserved indices 13..255 of the read port read 0 (10_state.md R35, R36). -/
theorem readPort_reserved {i : BitVec 8} (s : State) (hi : 13 ≤ i.toNat) : readPort i s = 0 := by
  obtain ⟨n, hn⟩ := Nat.exists_eq_add_of_le' hi
  simp only [readPort, hn]

/-- Settles O16: `State.reset` states each value of R39's table; B's bytes are those of a vector of zeros. -/
theorem stateAfterReset : Obligations.StateAfterReset :=
  ⟨rfl, fun k => reset_buf_getElem k k.isLt, rfl, rfl, rfl, rfl, rfl, rfl, rfl, rfl, rfl, rfl⟩

/-- Settles O17: each named index selects its row of R35's table, and every index from 13 on is reserved. -/
theorem readMap : Obligations.ReadMap := by
  intro s
  exact ⟨rfl, rfl, rfl, rfl, rfl, rfl, rfl, rfl, rfl, rfl, rfl, rfl, rfl, fun _ hi => readPort_reserved s hi⟩

end Sys2Proof.Proofs
end

section
/-! SUPPORT. Proof of the statement of 30_encoding.md section 3: the rows of the opcode map (R76). -/

namespace Sys2Proof.Proofs

open Sys2Proof.Laws Sys2Proof.Laws.MatchMask

/-- The command of `i`'s row that carries the operand fields of the word `cw` (30_encoding.md R71-R75). -/
def rowCommand (cw : Word) : Instr → Instr
  | .nop => .nop
  | .start => .start
  | .setlen _ _ => .setlen (chunkSelectField cw) (immField cw)
  | .abs1 _ => .abs1 (byteField0 cw)
  | .abs2 _ _ => .abs2 (byteField1 cw) (byteField0 cw)
  | .abs3 _ _ _ => .abs3 (byteField2 cw) (byteField1 cw) (byteField0 cw)
  | .final => .final
  | .clr => .clr

/-- The rows exclude each other: each asks for its own opcode, so the decoder answers the one row a word spells. -/
theorem decode_eq_rowCommand {cw : Word} {i : Instr} (h : cw &&& rowMask i = rowMatch i) :
    decode cw = .cmd (rowCommand cw i) := by
  rw [decode_eq_fields]
  cases i with
  | nop => exact if_pos ((and_mask_nop cw).mp h)
  | start => obtain ⟨hop, hres⟩ := (and_mask_start cw).mp h; simp [hop, hres, rowCommand]
  | setlen => obtain ⟨hop, hres⟩ := (and_mask_setlen cw).mp h; simp [hop, hres, rowCommand]
  | abs1 => obtain ⟨hop, hres⟩ := (and_mask_abs1 cw).mp h; simp [hop, hres, rowCommand]
  | abs2 => obtain ⟨hop, hres⟩ := (and_mask_abs2 cw).mp h; simp [hop, hres, rowCommand]
  | abs3 => simp [(and_mask_abs3 cw).mp h, rowCommand]
  | final => obtain ⟨hop, hres⟩ := (and_mask_final cw).mp h; simp [hop, hres, rowCommand]
  | clr => obtain ⟨hop, hres⟩ := (and_mask_clr cw).mp h; simp [hop, hres, rowCommand]

/-- The decoder answers a command only in the branch of that command's row. -/
theorem row_of_decode_eq {cw : Word} {i : Instr} (h : decode cw = .cmd i) :
    cw &&& rowMask i = rowMatch i := by
  unfold decode at h
  split_ifs at h with hrow hrow hrow hrow hrow hrow hrow hrow
  all_goals
    cases h
    exact beq_iff_eq.mp hrow

/-- Settles O3: each row pairs `decode_eq_rowCommand` with its converse `row_of_decode_eq`; the operands of the
command handed to the former are placeholders, since a row's match and mask do not depend on them. -/
theorem matchAndMaskOfEveryRow : Obligations.MatchAndMaskOfEveryRow := by
  intro cw
  refine ⟨?nop, ?start, ?setlen, ?abs1, ?abs2, ?abs3, ?final, ?clr⟩
  case nop => exact ⟨decode_eq_rowCommand (i := .nop), row_of_decode_eq⟩
  case start => exact ⟨decode_eq_rowCommand (i := .start), row_of_decode_eq⟩
  case setlen =>
    exact ⟨fun h => ⟨_, _, decode_eq_rowCommand (i := .setlen 0 0) h⟩, fun ⟨_, _, h⟩ => row_of_decode_eq h⟩
  case abs1 =>
    exact ⟨fun h => ⟨_, decode_eq_rowCommand (i := .abs1 0) h⟩, fun ⟨_, h⟩ => row_of_decode_eq h⟩
  case abs2 =>
    exact ⟨fun h => ⟨_, _, decode_eq_rowCommand (i := .abs2 0 0) h⟩, fun ⟨_, _, h⟩ => row_of_decode_eq h⟩
  case abs3 =>
    exact ⟨fun h => ⟨_, _, _, decode_eq_rowCommand (i := .abs3 0 0 0) h⟩, fun ⟨_, _, _, h⟩ => row_of_decode_eq h⟩
  case final => exact ⟨decode_eq_rowCommand (i := .final), row_of_decode_eq⟩
  case clr => exact ⟨decode_eq_rowCommand (i := .clr), row_of_decode_eq⟩

end Sys2Proof.Proofs
end

section
/-! SUPPORT. Proofs of the statements of 40_padder_segmenter.md: the padding zeros (R101), the padded length (R102) and
the Block Segmenter (R104, R105). -/

namespace Sys2Proof.Proofs

open Sys2Proof.Machine Sys2Proof.Laws

/-! ### The Padder -/

/-- The zeros number 0 to 63 (R101). -/
theorem padZeros_le (n : Nat) : padZeros n ≤ 63 := by unfold padZeros; omega

/-- The closed form of R101, whose difference may be negative. -/
theorem padZeros_closed_form (n : Nat) : (padZeros n : Int) = (55 - (n : Int) % 64) % 64 := by
  unfold padZeros; omega

/-- The marker, the zeros and the length field complete the last block (R101). -/
theorem padZeros_completes (n : Nat) : (n + 1 + padZeros n + 8) % 64 = 0 := by unfold padZeros; omega

/-- Counts of zeros that complete a block differ by multiples of 64, so the one below 64 is the least (R101). -/
theorem padZeros_le_of_completes {n z : Nat} (h : (n + 1 + z + 8) % 64 = 0) : padZeros n ≤ z := by
  have hle := padZeros_le n
  have hpad := padZeros_completes n
  omega

/-- Settles O48: the closed form and its range, and minimality from `padZeros_le_of_completes`. -/
theorem paddingIsLeast : Obligations.PaddingIsLeast := fun n =>
  ⟨padZeros_closed_form n, padZeros_le n, padZeros_completes n,
    fun _ hlt h => (padZeros_le_of_completes h).not_gt hlt⟩

/-- `L + 9 + z = 64 * NB(L)` (R102). -/
theorem add_padZeros_eq_numBlocks (n : Nat) : n + (padZeros n + 9) = 64 * numBlocks n := by
  have hle := padZeros_le n
  have hpad := padZeros_completes n
  unfold numBlocks
  omega

/-- A padded message is NB(L) whole blocks long (R102). -/
theorem pad_length (m : List Byte) : (pad m).length = 64 * numBlocks m.length := by
  rw [pad, List.length_append, framing_length, add_padZeros_eq_numBlocks]

/-! ### The Block Segmenter -/

/-- A block that lies within the buffer is the buffer's bytes 64k..64k+63, in order (R104). -/
theorem blockAt_toList {p : List Byte} {k : Nat} (h : 64 * k + 64 ≤ p.length) :
    (blockAt p k).toList = (p.drop (64 * k)).take 64 := by
  apply List.ext_getElem
  · simp; omega
  · intro j hj _
    have hj64 : j < 64 := by simpa using hj
    have hin : 64 * k + j < p.length := by omega
    simp [blockAt, hin]

/-- The first n blocks, end to end, are the buffer's first 64n bytes (R104). -/
theorem flatMap_blockAt_range (p : List Byte) (n : Nat) (h : 64 * n ≤ p.length) :
    ((List.range n).flatMap fun k => (blockAt p k).toList) = p.take (64 * n) := by
  induction n with
  | zero => simp
  | succ n ih =>
    rw [List.range_succ, List.flatMap_append, List.flatMap_singleton, ih (by omega), blockAt_toList h,
      ← List.take_add, Nat.mul_succ]

/-- A buffer of whole blocks is cut at every multiple of 64 (R104). -/
theorem segment_eq_ok {p : List Byte} (h : p.length % 64 = 0) :
    Machine.segment p = .ok ((List.range (p.length / 64)).map (blockAt p)) := if_pos h

/-- Any other buffer is the fault SEGMENT_ALIGN (R105). -/
theorem segment_eq_error {p : List Byte} (h : p.length % 64 ≠ 0) : Machine.segment p = .error .segmentAlign :=
  if_neg h

/-- The segmenter cuts every padded message into its NB(L) blocks (R104). -/
theorem segment_pad (m : List Byte) :
    Machine.segment (pad m) = .ok ((List.range (numBlocks m.length)).map (blockAt (pad m))) := by
  have hlen := pad_length m
  rw [segment_eq_ok (by omega), show (pad m).length / 64 = numBlocks m.length by omega]

/-- Settles O50: the blocks of an aligned buffer, end to end, are all of its bytes (`flatMap_blockAt_range`), any other
buffer faults, and a padded message is aligned (`pad_length`). -/
theorem segmentCutsWholeBlocksOnly : Obligations.SegmentCutsWholeBlocksOnly := by
  refine ⟨fun p => ⟨fun h => ⟨_, segment_eq_ok h, by simp, ?_⟩, segment_eq_error⟩,
    fun m => ⟨_, segment_pad m, by simp⟩⟩
  have hlen : 64 * (p.length / 64) = p.length := Nat.mul_div_cancel' (Nat.dvd_of_mod_eq_zero h)
  rw [List.flatMap_map, flatMap_blockAt_range p _ hlen.le, hlen, List.take_length]

end Sys2Proof.Proofs
end

section
/-! SUPPORT. What `Step(CW)` and `exec` answer for a word with a reserved bit set, in phase ERROR, for a command not
legal in the phase and for an absorb command without room, said once; and the word a decoded command came from. -/

namespace Sys2Proof.Proofs

open Sys2Proof.Machine Sys2Proof.Laws Sys2Proof.Laws.MatchMask

/-! ### Words and their commands -/

/-- A word that spells a row is the word of that row's command with the word's own operand fields: each of its bits is
fixed by the row's mask or is an operand bit (R71-R76). -/
theorem encode_rowCommand {cw : Word} {i : Instr} (h : cw &&& rowMask i = rowMatch i) :
    encode (rowCommand cw i) = cw := by
  cases i with
  | nop | start | final | clr => exact h.symm.trans BitVec.and_allOnes
  | setlen | abs1 | abs2 | abs3 =>
    refine BitVec.eq_of_getLsbD_eq fun j hj => ?_
    replace h := congrArg (BitVec.getLsbD · j) h
    interval_cases j <;>
      simp_all [rowCommand, encode, rowMatch, rowMask, chunkSelectField, immField, byteField0, byteField1, byteField2]

/-- A decoded command's word is the word it was decoded from (R70, R76). -/
theorem encode_of_decode_eq {cw : Word} {i : Instr} (h : decode cw = .cmd i) : encode i = cw := by
  have hrow : cw &&& rowMask i = rowMatch i := row_of_decode_eq h
  have hi : i = rowCommand cw i := Decoded.cmd.inj (h.symm.trans (decode_eq_rowCommand hrow))
  rw [hi, encode_rowCommand hrow]

/-- A reserved bit takes a word out of its opcode's row, so the decoder answers by R78. -/
theorem decode_of_reservedBitSet {cw : Word} (h : ReservedBitSet cw) :
    decode cw = .reservedNonzero (opcodeField cw) := by
  rw [decode_eq_fields]
  obtain ⟨hop | hop | hop | hop, hres⟩ | ⟨hop, hres⟩ | ⟨hop, hres⟩ | ⟨hop, hres⟩ := h <;>
    simpa [hop] using hres

/-- A word with a reserved bit set is rejected by that name (R226). -/
theorem stepWord_of_reservedBitSet {cw : Word} (h : ReservedBitSet cw) (s : State) :
    stepWord cw s = .next (rejectWord .reservedNonzero cw s) := by
  simp [stepWord, decode_of_reservedBitSet h]

theorem rejectWord_in_error (cause : ErrCause) (cw : Word) {s : State} (h : s.phase = .error) :
    rejectWord cause cw s = discard s := if_pos h

theorem rejectWord_outside_error (cause : ErrCause) (cw : Word) {s : State} (h : s.phase ≠ .error) :
    rejectWord cause cw s = raiseError cause cw s := if_neg h

/-- Outside ERROR a reserved bit raises RESERVED_NONZERO (R226). -/
theorem stepWord_reserved_outside_error {cw : Word} {s : State} (h : ReservedBitSet cw) (hp : s.phase ≠ .error) :
    stepWord cw s = .next (raiseError .reservedNonzero cw s) := by
  rw [stepWord_of_reservedBitSet h, rejectWord_outside_error _ _ hp]

/-! ### Commands the gate stops -/

/-- In phase ERROR every command but CLR is discarded (R223). -/
theorem exec_in_error {i : Instr} {s : State} (hp : s.phase = .error) (hi : i ≠ .clr) :
    exec i s = .next (discard s) := by
  rw [exec_eq_whenLegal, whenLegal, hp, legalIn_error]
  simp [hi]

/-- A command that is not legal in its phase raises BAD_PHASE (R227). -/
theorem exec_of_not_legal {i : Instr} {s : State} (hp : s.phase ≠ .error) (hl : legalIn i s.phase = false) :
    exec i s = .next (raiseError .badPhase (encode i) s) := by
  rw [exec_eq_whenLegal, whenLegal, hl]
  simp [hp]

/-! ### Absorb commands -/

theorem legalIn_absorb_of_isAbsorb {i : Instr} (h : isAbsorb i = true) : legalIn i .absorb = true := by
  cases i with
  | abs1 | abs2 | abs3 => rfl
  | nop | start | setlen | final | clr => cases h

theorem messageBytes_length_pos {i : Instr} (h : isAbsorb i = true) : 0 < (messageBytes i).length := by
  cases i with
  | abs1 | abs2 | abs3 => simp [messageBytes]
  | nop | start | setlen | final | clr => cases h

/-- Every ABSn is ABSORB of its message bytes (R195). -/
theorem effectOf_of_isAbsorb {i : Instr} (h : isAbsorb i = true) :
    effectOf i = absorbOrOverrun i (messageBytes i) := by
  cases i with
  | abs1 | abs2 | abs3 => rfl
  | nop | start | setlen | final | clr => cases h

/-- An absorb command without room for all its bytes raises OVERRUN (R228). -/
theorem exec_absorb_overrun {i : Instr} {s : State} (hi : isAbsorb i = true) (hp : s.phase = .absorb)
    (h : s.abscnt.toNat + (messageBytes i).length > s.len.toNat) :
    exec i s = .next (raiseError .overrun (encode i) s) := by
  rw [exec_of_legal (by rw [hp]; exact legalIn_absorb_of_isAbsorb hi), effectOf_of_isAbsorb hi, absorbOrOverrun,
    if_pos h]

end Sys2Proof.Proofs
end

section
/-! SUPPORT. Proofs of the statements of 45_commands.md: `Step(CW)` and the table of legal commands (R191), NOP (R192),
START (R193), SETLEN (R194), FINAL (R201) and CLR (R202). -/

namespace Sys2Proof.Proofs

open Sys2Proof.Machine Sys2Proof.Laws

/-! ### `Step(CW)` -/

/-- In phase ERROR a word that is not CLR's is discarded, whatever the decoder answers (R191, R223). -/
theorem stepWord_in_error {cw : Word} {s : State} (hp : s.phase = .error) (hcw : cw ≠ encode .clr) :
    stepWord cw s = .next (discard s) := by
  unfold stepWord
  cases hd : decode cw with
  | cmd i =>
    have hi : i ≠ .clr := by rintro rfl; exact hcw (encode_of_decode_eq hd).symm
    exact exec_in_error hp hi
  | reservedNonzero op => exact congrArg _ (rejectWord_in_error _ cw hp)
  | illegalOpcode op => exact congrArg _ (rejectWord_in_error _ cw hp)

/-- Settles O9: in phase ERROR by `stepWord_in_error`; in the others by the decoder's answer, where an illegal command
raises BAD_PHASE with its own encoding, which is the word CW (`encode_of_decode_eq`). -/
theorem stepDispatchAndLegalPhases : Obligations.StepDispatchAndLegalPhases := by
  intro cw s
  by_cases hp : s.phase = .error
  · rw [if_pos hp]
    by_cases hcw : cw = 0x07000000
    · rw [if_pos hcw, hcw]; rfl
    · rw [if_neg hcw]; exact stepWord_in_error hp hcw
  · rw [if_neg hp]
    unfold stepWord
    cases hd : decode cw with
    | illegalOpcode op => exact congrArg _ (rejectWord_outside_error _ cw hp)
    | reservedNonzero op => exact congrArg _ (rejectWord_outside_error _ cw hp)
    | cmd i =>
      have hgate : exec i s = if legalIn i s.phase = true then exec i s else .next (raiseError .badPhase cw s) := by
        rw [← encode_of_decode_eq hd]
        split_ifs with hl
        · rfl
        · exact exec_of_not_legal hp (Bool.eq_false_iff.mpr hl)
      cases i with
      | nop => rfl
      | start | setlen | abs1 | abs2 | abs3 | final | clr => exact hgate

/-! ### NOP, START, SETLEN and CLR -/

/-- Settles O26: NOP's effect behind the gate is the identity. -/
theorem nopChangesNothing : Obligations.NopChangesNothing := by
  refine ⟨rfl, fun s => ⟨fun hp => ?_, fun hp => ?_, fun cw hop hres hp => ?_⟩⟩
  · exact exec_of_legal (by simpa [legalIn] using hp)
  · exact exec_in_error hp (by decide)
  · exact stepWord_reserved_outside_error (.inl ⟨.inl hop, hres⟩) hp

/-- START begins a message in IDLE and in DONE (R193). -/
theorem exec_start {s : State} (hp : s.phase = .idle ∨ s.phase = .done) :
    exec .start s = .next (beginMessage s) :=
  exec_of_legal (by rcases hp with hp | hp <;> rw [hp] <;> rfl)

/-- Settles O27: with LEN = 0 the state that START leaves has room for no byte, and every ABSn carries one. -/
theorem startBeginsMessage : Obligations.StartBeginsMessage := by
  refine ⟨rfl, fun s => ⟨exec_start, fun hp => ?_, fun cw hop hres hp => ?_, fun hp hlen t i ht hi => ?_⟩⟩
  · exact exec_of_not_legal (by simp [hp]) (by rw [hp]; rfl)
  · exact stepWord_reserved_outside_error (.inl ⟨.inr (.inl hop), hres⟩) hp
  · rw [exec_start hp] at ht
    cases ht
    have hpos := messageBytes_length_pos hi
    exact exec_absorb_overrun hi rfl (by simpa [hlen] using hpos)

/-- SETLEN's chunk write, bit by bit: IMM16 at the chunk's 16 positions, the old bit at the other 48 (R75). -/
theorem writeChunk_getLsbD (len : DWord) (k : BitVec 2) (imm16 : BitVec 16) (j : Nat) (hj : j < 64) :
    (writeChunk len k imm16).getLsbD j =
      if 16 * k.toNat ≤ j ∧ j < 16 * k.toNat + 16 then imm16.getLsbD (j - 16 * k.toNat) else len.getLsbD j := by
  have hmask : 0xFFFF#64 = (BitVec.allOnes 16).setWidth 64 := rfl
  simp only [writeChunk, hmask, BitVec.getLsbD_or, BitVec.getLsbD_and, BitVec.getLsbD_not, BitVec.getLsbD_shiftLeft,
    BitVec.getLsbD_setWidth, BitVec.getLsbD_allOnes, hj]
  by_cases hlo : j < 16 * k.toNat
  · simp [hlo, show ¬ 16 * k.toNat ≤ j by omega]
  · by_cases hhi : j < 16 * k.toNat + 16
    · simp [hlo, hhi, show 16 * k.toNat ≤ j by omega, show j - 16 * k.toNat < 16 by omega,
        show j - 16 * k.toNat < 64 by omega]
    · simp [hlo, hhi, show ¬ j - 16 * k.toNat < 16 by omega, BitVec.getLsbD_of_ge imm16 (j - 16 * k.toNat) (by omega)]

/-- Settles O28: the new LEN is `writeChunk`, whose bits are those of `writeChunk_getLsbD`. -/
theorem setlenWritesOneChunk : Obligations.SetlenWritesOneChunk := by
  intro s k imm16
  refine ⟨rfl, fun hp => ⟨writeChunk s.len k imm16, ?_, fun j => writeChunk_getLsbD _ _ _ _ j.isLt⟩, fun hp => ?_,
    fun cw hop hres hp => ?_⟩
  · exact exec_of_legal (by rcases hp with hp | hp <;> rw [hp] <;> rfl)
  · exact exec_of_not_legal (by simp [hp]) (by rw [hp]; rfl)
  · exact stepWord_reserved_outside_error (.inr (.inl ⟨hop, hres⟩)) hp

/-- CLR is legal in every phase (R202). -/
theorem exec_clr (s : State) : exec .clr s = .next (clearState s) := exec_of_legal rfl

/-- STATUS reads 0 after CLR (R202). -/
theorem statusWord_clearState (s : State) : statusWord (clearState s) = 0 := by
  simp only [statusWord, errFlag, dvalid, clearState_phase, clearState_errcode, clearState_drop]
  decide

/-- Settles O29: CLR passes the gate in every phase; a CLR word with reserved bits is no command and goes to
`rejectWord`. -/
theorem clrClearsAllButLen : Obligations.ClrClearsAllButLen := by
  refine ⟨rfl, fun s => ⟨exec_clr s, fun t ht => ?_, fun cw hop hres => ?_⟩⟩
  · rw [exec_clr] at ht
    cases ht
    exact statusWord_clearState s
  · rw [stepWord_of_reservedBitSet (.inl ⟨.inr (.inr (.inr hop)), hres⟩)]
    exact apply_ite _ _ _ _

/-! ### FINAL -/

/-- FINAL of a message of the declared length finishes it (R201). -/
theorem exec_final_finishes {s : State} (hp : s.phase = .absorb) (h : s.len.toNat ≤ s.abscnt.toNat) :
    exec .final s = .next (finishMessage s) := by
  rw [exec_of_legal (by rw [hp]; rfl)]
  exact congrArg _ (if_neg h.not_gt)

/-- FINAL short of the declared length raises UNDERRUN (R229). -/
theorem exec_final_underrun {s : State} (hp : s.phase = .absorb) (h : s.abscnt.toNat < s.len.toNat) :
    exec .final s = .next (raiseError .underrun (encode .final) s) := by
  rw [exec_of_legal (by rw [hp]; rfl)]
  exact congrArg _ (if_pos h)

/-- With at most 55 bytes held the suffix fills the buffer once, with the length at its end (R106). -/
theorem appendBytes_framing_one_block {s : State} (h : s.bcnt.toNat ≤ 55) :
    appendBytes (framing (padZeros s.bcnt.toNat) s.tbits) s = { s with
      buf := markerBlock s
      lanes := compress s.cfg s.lanes (schedule s.cfg (extract (markerBlock s))) s.bidx s.tbits
      bidx := s.bidx + 1
      bcnt := 0 } := by
  rw [padZeros_of_le _ h]
  refine appendBytes_fill _ s _ (by rw [framing_length]; omega) fun k hk => ?_
  rcases Nat.lt_trichotomy k s.bcnt.toNat with hlt | rfl | hgt
  · simp [markerBlock, framing_getElem, hlt]
  · simp [markerBlock, framing_getElem]
  · rw [dif_pos hgt.le, framing_getElem, if_neg (by omega)]
    by_cases hk56 : 56 ≤ k
    · simp [markerBlock, h, hk56, hgt.not_gt, hgt.ne', show ¬ k - s.bcnt.toNat ≤ 55 - s.bcnt.toNat by omega,
        show k - s.bcnt.toNat - (55 - s.bcnt.toNat + 1) = k - 56 by omega]
    · simp [markerBlock, hk56, hgt.not_gt, hgt.ne', show k - s.bcnt.toNat ≤ 55 - s.bcnt.toNat by omega]

/-- The suffix of a message that holds n bytes past 55, cut where its zeros fill the buffer (R101). -/
theorem framing_eq_append {n : Nat} (h : n < 64) (t : DWord) :
    framing (119 - n) t = (0x80 :: List.replicate (63 - n) 0) ++ (List.replicate 56 0 ++ be64bytes t) := by
  rw [framing, show 119 - n = (63 - n) + 56 by omega, List.replicate_add]
  simp

/-- With more than 55 bytes held the marker and zeros fill the buffer (R106). -/
theorem appendBytes_marker_zeros {s : State} (h : 55 < s.bcnt.toNat) :
    appendBytes (0x80 :: List.replicate (63 - s.bcnt.toNat) 0) s = { s with
      buf := markerBlock s
      lanes := compress s.cfg s.lanes (schedule s.cfg (extract (markerBlock s))) s.bidx s.tbits
      bidx := s.bidx + 1
      bcnt := 0 } := by
  have hcap := s.bcnt.isLt
  refine appendBytes_fill _ s _ (by simp; omega) fun k hk => ?_
  rcases Nat.lt_trichotomy k s.bcnt.toNat with hlt | rfl | hgt
  · simp [markerBlock, hlt]
  · simp [markerBlock]
  · simp [markerBlock, List.getElem_cons, hgt.le, hgt.not_gt, hgt.ne', h.not_ge, show ¬ k - s.bcnt.toNat = 0 by omega]

/-- Zeros and the length fill an empty buffer (R102). -/
theorem appendBytes_zeros_length {s : State} (h : s.bcnt = 0) (t : DWord) :
    appendBytes (List.replicate 56 0 ++ be64bytes t) s = { s with
      buf := lengthBlock t
      lanes := compress s.cfg s.lanes (schedule s.cfg (extract (lengthBlock t))) s.bidx s.tbits
      bidx := s.bidx + 1
      bcnt := 0 } := by
  refine appendBytes_fill _ s _ (by simp [h]) fun k hk => ?_
  have hb : s.bcnt.toNat = 0 := by rw [h]; rfl
  rw [dif_pos (by omega)]
  by_cases hk56 : 56 ≤ k
  · rw [List.getElem_append_right (by simp; omega)]
    have hi : k - 56 < (be64bytes t).length := by rw [be64bytes_length]; omega
    simp [lengthBlock, hb, hk56, List.getElem?_eq_getElem hi]
  · rw [List.getElem_append_left (by simp; omega), List.getElem_replicate]
    simp [lengthBlock, hk56]

/-- With more than 55 bytes held the suffix completes two blocks: the marker's, and that of the length (R102). -/
theorem appendBytes_framing_two_blocks {s : State} (h : 55 < s.bcnt.toNat) {l l' : Lanes}
    (hl : l = compress s.cfg s.lanes (schedule s.cfg (extract (markerBlock s))) s.bidx s.tbits)
    (hl' : l' = compress s.cfg l (schedule s.cfg (extract (lengthBlock s.tbits))) (s.bidx + 1) s.tbits) :
    appendBytes (framing (padZeros s.bcnt.toNat) s.tbits) s = { s with
      buf := lengthBlock s.tbits
      lanes := l'
      bidx := s.bidx + 2
      bcnt := 0 } := by
  have hlt := s.bcnt.isLt
  rw [padZeros_of_gt _ h hlt, framing_eq_append hlt, appendBytes_append, appendBytes_marker_zeros h,
    appendBytes_zeros_length rfl, hl', hl]
  simp [BitVec.add_assoc]

/-- Settles O35: the framing suffix ends on a block boundary, one or two blocks on, and the Finalizer then reads the S
those blocks left. -/
theorem finalCompletesTheMessage : Obligations.FinalCompletesTheMessage := by
  refine ⟨rfl, fun s => ⟨fun hp hlen hb l hl => ?_, fun hp hlen hb l l' hl hl' => ?_, exec_final_underrun,
    fun hp => ?_, fun cw hop hres hp => ?_⟩⟩
  · rw [exec_final_finishes hp hlen, finishMessage, appendBytes_framing_one_block hb, hl]
  · rw [exec_final_finishes hp hlen, finishMessage, appendBytes_framing_two_blocks hb hl hl']
  · rcases hp with hp | hp <;> exact exec_of_not_legal (by simp [hp]) (by rw [hp]; rfl)
  · exact stepWord_reserved_outside_error (.inl ⟨.inr (.inr (.inl hop)), hres⟩) hp

end Sys2Proof.Proofs
end

section
/-! SUPPORT. Proofs of the statements of 60_exceptions.md: what an error entry writes (R222), the discards of phase
ERROR (R223) and the causes ILLEGAL_OPCODE (R225), RESERVED_NONZERO (R226), BAD_PHASE (R227) and OVERRUN (R228). -/

namespace Sys2Proof.Proofs

open Sys2Proof.Machine Sys2Proof.Laws

/-! ### Words that are no command -/

/-- No row has an opcode of 0x08 or more, so the decoder answers by R77 of 30_encoding.md. -/
theorem decode_of_illegal_opcode {cw : Word} (hop : 0x08 ≤ opcodeField cw) :
    decode cw = .illegalOpcode (opcodeField cw) := by
  have hrow : ∀ op < (0x08 : Byte), opcodeField cw ≠ op := by rintro op hlt rfl; bv_omega
  have hdef : ¬ opcodeField cw ≤ 0x07 := by bv_omega
  rw [decode_eq_fields, if_neg hdef]
  simp [hrow]

/-- The decoder answers `illegalOpcode` to no word of a defined opcode (30_encoding.md R77). -/
theorem opcodeField_ge_of_decode_eq_illegalOpcode {cw : Word} {op : Byte} (h : decode cw = .illegalOpcode op) :
    0x08 ≤ opcodeField cw := by
  rw [decode_eq_fields] at h
  split_ifs at h
  bv_omega

/-- A word of a defined opcode that matches no row is answered by R78 of 30_encoding.md. -/
theorem decode_of_no_row {cw : Word} (hop : opcodeField cw < 0x08) (hrow : ∀ i, decode cw ≠ .cmd i) :
    ∃ op, decode cw = .reservedNonzero op := by
  cases hd : decode cw with
  | cmd i => exact absurd hd (hrow i)
  | reservedNonzero op => exact ⟨op, rfl⟩
  | illegalOpcode op =>
    have hge := opcodeField_ge_of_decode_eq_illegalOpcode hd
    bv_omega

/-- Settles O20: the decoder names the cause, and `rejectWord` discards the word in ERROR and raises it elsewhere. -/
theorem illegalOpcodeRaises : Obligations.IllegalOpcodeRaises := by
  intro cw s hop
  rw [stepWord, decode_of_illegal_opcode hop]
  exact apply_ite _ _ _ _

/-- Settles O21: a word with a reserved bit set matches no row, and a word of a defined opcode that matches no row can
only be answered `reservedNonzero`. -/
theorem reservedBitRaises : Obligations.ReservedBitRaises := by
  intro cw s hp
  refine ⟨fun hres => stepWord_reserved_outside_error hres hp, fun hop hrow => ?_⟩
  obtain ⟨op, hd⟩ := decode_of_no_row hop hrow
  rw [stepWord, hd]
  exact congrArg _ (rejectWord_outside_error _ cw hp)

/-! ### Commands that raise an error -/

/-- An absorb command is legal in ABSORB only (45_commands.md R191). -/
theorem legalIn_of_isAbsorb {i : Instr} (hi : isAbsorb i = true) (p : Phase) : legalIn i p = (p == .absorb) := by
  cases i with
  | abs1 | abs2 | abs3 => rfl
  | nop | start | setlen | final | clr => cases hi

/-- Settles O22: each command named is shut out by its row of the legal-command table. -/
theorem badPhaseRaises : Obligations.BadPhaseRaises := by
  rintro s i (⟨hp, rfl | ⟨k, imm16, rfl⟩⟩ | ⟨hp, hi | rfl⟩)
  · exact exec_of_not_legal (by simp [hp]) (by rw [hp]; rfl)
  · exact exec_of_not_legal (by simp [hp]) (by rw [hp]; rfl)
  · rcases hp with hp | hp <;> exact exec_of_not_legal (by simp [hp]) (by rw [legalIn_of_isAbsorb hi, hp]; rfl)
  · rcases hp with hp | hp <;> exact exec_of_not_legal (by simp [hp]) (by rw [hp]; rfl)

/-- Settles O23: ABS1, ABS2 and ABS3 carry one, two and three message bytes, so each is `exec_absorb_overrun`. -/
theorem overrunRaises : Obligations.OverrunRaises := fun _ b0 b1 b2 hp =>
  ⟨exec_absorb_overrun (i := .abs1 b0) rfl hp, exec_absorb_overrun (i := .abs2 b0 b1) rfl hp,
    exec_absorb_overrun (i := .abs3 b0 b1 b2) rfl hp⟩

/-! ### Error entry -/

/-- The absorb loop does not write PHASE. -/
@[simp] theorem absorbBytes_phase (bs : List Byte) (s : State) : (absorbBytes bs s).phase = s.phase := by
  rw [absorbBytes_eq, appendBytes_frame]

/-- ABSORB leads to ERROR only by its OVERRUN entry (45_commands.md R195). -/
theorem absorbOrOverrun_enters_error {i : Instr} {bs : List Byte} {s : State} (hp : s.phase ≠ .error)
    (h : (absorbOrOverrun i bs s).phase = .error) : absorbOrOverrun i bs s = raiseError .overrun (encode i) s := by
  unfold absorbOrOverrun at h ⊢
  split_ifs at h ⊢ with hroom
  · rfl
  · exact absurd (absorbBytes_phase bs s ▸ h) hp

/-- FINAL leads to ERROR only by its UNDERRUN entry, since a finished message is in DONE (45_commands.md R201). -/
theorem finishOrUnderrun_enters_error {s : State} (h : (finishOrUnderrun s).phase = .error) :
    finishOrUnderrun s = raiseError .underrun (encode .final) s := by
  unfold finishOrUnderrun at h ⊢
  split_ifs at h ⊢ with hshort
  · rfl
  · cases h

/-- A command's effect leads to ERROR only by an error entry: that of ABSn or of FINAL. -/
theorem effectOf_enters_error {i : Instr} {s : State} (hp : s.phase ≠ .error) (h : (effectOf i s).phase = .error) :
    ∃ cause, effectOf i s = raiseError cause (encode i) s := by
  cases i with
  | nop | setlen => exact absurd h hp
  | start | clr => cases h
  | abs1 | abs2 | abs3 => exact ⟨.overrun, absorbOrOverrun_enters_error hp h⟩
  | final => exact ⟨.underrun, finishOrUnderrun_enters_error h⟩

/-- Outside ERROR a command leads to ERROR only by an error entry: BAD_PHASE, or that of its effect. -/
theorem exec_enters_error {i : Instr} {s t : State} (hp : s.phase ≠ .error) (h : exec i s = .next t)
    (ht : t.phase = .error) : ∃ cause, t = raiseError cause (encode i) s := by
  obtain ⟨-, he⟩ | ⟨herr, -, -⟩ | ⟨-, -, -, he⟩ := exec_cases i s
  · cases he.symm.trans h
    exact effectOf_enters_error hp ht
  · exact absurd herr hp
  · cases he.symm.trans h
    exact ⟨.badPhase, rfl⟩

/-- Every entry into ERROR is one use of `raiseError` with the command word (R221). -/
theorem stepWord_enters_error {cw : Word} {s t : State} (hp : s.phase ≠ .error) (h : stepWord cw s = .next t)
    (ht : t.phase = .error) : ∃ cause, t = raiseError cause cw s := by
  unfold stepWord at h
  split at h
  next i hd => exact encode_of_decode_eq hd ▸ exec_enters_error hp h ht
  all_goals
    rw [rejectWord_outside_error _ cw hp] at h
    cases h
    exact ⟨_, rfl⟩

/-- The codes of the causes are 1 to 5 (R220). -/
theorem causeBits_range (cause : ErrCause) : 1 ≤ (causeBits cause).toNat ∧ (causeBits cause).toNat ≤ 5 := by
  cases cause <;> decide

/-- STATUS after an error entry: the code, ERR and PHASE, with DROP still 0 (10_state.md R32). -/
theorem statusWord_raiseError (cause : ErrCause) (cw : Word) {s : State} (hd : s.drop = false) :
    statusWord (raiseError cause cw s) = ((causeBits cause).setWidth 32 <<< 8) ||| 0x8 ||| 0x3 := by
  simp only [statusWord, errFlag, dvalid, raiseError_phase, raiseError_errcode, raiseError_drop, hd]
  cases cause <;> decide

/-- Settles O24: the entry is a `raiseError` (`stepWord_enters_error`), which writes those three fields. -/
theorem errorEntryIsPrecise : Obligations.ErrorEntryIsPrecise := by
  intro cw s t hp h ht
  obtain ⟨cause, rfl⟩ := stepWord_enters_error hp h ht
  obtain ⟨hlo, hhi⟩ := causeBits_range cause
  exact ⟨rfl, hlo, hhi, statusWord_raiseError cause cw⟩

/-! ### Discards of phase ERROR -/

/-- Settles O25: CLR is legal in ERROR too (`exec_clr`), and every other word is discarded (`stepWord_in_error`). -/
theorem errorPhaseDiscards : Obligations.ErrorPhaseDiscards := by
  refine fun cw s hp => ⟨?_, stepWord_in_error hp⟩
  rintro rfl
  exact ⟨clearState s, exec_clr s, exec_clr s, rfl⟩

end Sys2Proof.Proofs
end

section
/-! SUPPORT. Proofs of the statements of 30_encoding.md: the round trips of the words (R70-R76), the decoder's three
answers (R80) and the operand ranges of the assembler (R82). -/

namespace Sys2Proof.Proofs

open Sys2Proof.Machine Sys2Proof.Laws Sys2Proof.Laws.MatchMask

/-! ### The word of a command -/

/-- The word of every command spells that command's row (R76). -/
theorem encode_spells_row (i : Instr) : encode i &&& rowMask i = rowMatch i := by
  cases i with
  | nop => exact MatchMask.nop
  | start => exact MatchMask.start
  | setlen k imm16 => exact MatchMask.setlen k imm16
  | abs1 b0 => exact MatchMask.abs1 b0
  | abs2 b0 b1 => exact MatchMask.abs2 b0 b1
  | abs3 b0 b1 b2 => exact MatchMask.abs3 b0 b1 b2
  | final => exact MatchMask.final
  | clr => exact MatchMask.clr

/-- The operand fields of a command's word are its operands, bit by bit: the fields of a format do not overlap
(R72-R75). -/
theorem rowCommand_encode (i : Instr) : rowCommand (encode i) i = i := by
  cases i with
  | nop | start | final | clr => rfl
  | setlen | abs1 | abs2 | abs3 =>
    dsimp only [rowCommand]
    congr 1 <;> ext j hj <;> interval_cases j <;>
      simp [encode, chunkSelectField, immField, byteField0, byteField1, byteField2]

/-- The decoder reads a command back from its word (R76, R80). -/
theorem decode_encode (i : Instr) : decode (encode i) = .cmd i := by
  rw [decode_eq_rowCommand (encode_spells_row i), rowCommand_encode]

/-- Settles O1: the word spells its row, and the row's fields are the operands. -/
theorem decodeOfEncode : Obligations.DecodeOfEncode := decode_encode

/-- Settles O2: a decoded word is rebuilt from its row and its operand fields. -/
theorem encodeOfDecoded : Obligations.EncodeOfDecoded := fun _ _ => encode_of_decode_eq

/-- Settles O5: each of the eight words is closed, so the decoder computes its command. -/
theorem wordsOfTheFormatsDecode : Obligations.WordsOfTheFormatsDecode := by
  unfold Obligations.WordsOfTheFormatsDecode
  decide

/-! ### The decoder's three answers -/

/-- The decoder answers `reservedNonzero` only to a word of a defined opcode that misses its row by a reserved bit
(R78). -/
theorem reservedBitSet_of_decode_eq {cw : Word} {op : Byte} (h : decode cw = .reservedNonzero op) :
    ReservedBitSet cw := by
  rw [decode_eq_fields] at h
  split_ifs at h
  have hop : opcodeField cw = 0 ∨ opcodeField cw = 1 ∨ opcodeField cw = 2 ∨ opcodeField cw = 3 ∨
      opcodeField cw = 4 ∨ opcodeField cw = 6 ∨ opcodeField cw = 7 := by bv_omega
  unfold ReservedBitSet
  rcases hop with hop | hop | hop | hop | hop | hop | hop <;> simp_all

/-- Settles O4: each rejection's condition gives the decoder's answer and is given by it; the answer is a command
exactly when it is neither rejection. -/
theorem decoderRejectsByName : Obligations.DecoderRejectsByName := by
  intro cw
  refine ⟨⟨decode_of_illegal_opcode, opcodeField_ge_of_decode_eq_illegalOpcode⟩,
    ⟨decode_of_reservedBitSet, reservedBitSet_of_decode_eq⟩, ?_, ?_⟩
  · rintro ⟨i, hi⟩
    refine ⟨BitVec.not_le.mp fun hop => ?_, fun hres => ?_⟩
    · exact nomatch hi.symm.trans (decode_of_illegal_opcode hop)
    · exact nomatch hi.symm.trans (decode_of_reservedBitSet hres)
  · rintro ⟨hop, hres⟩
    cases hd : decode cw with
    | cmd i => exact ⟨i, rfl⟩
    | reservedNonzero op => exact absurd (reservedBitSet_of_decode_eq hd) hres
    | illegalOpcode op => exact absurd (opcodeField_ge_of_decode_eq_illegalOpcode hd) (BitVec.not_le.mpr hop)

/-! ### The assembler -/

/-- Settles O6: the bounds of `AsmLine.wellFormed` are the operand widths of the four forms. -/
theorem assemblerRejectsOutOfRange : Obligations.AssemblerRejectsOutOfRange := by
  intro n0 n1 n2
  refine ⟨?setlen, ?abs1, ?abs2, ?abs3⟩ <;>
    simp [commandOf, AsmLine.wellFormed, Nat.lt_succ_iff, and_assoc]

end Sys2Proof.Proofs
end

section
/-! SUPPORT. What the byte loops, ABSORB and FINAL leave unchanged, field by field, and every way a command and a
command word can execute, said once. -/

namespace Sys2Proof.Proofs

open Sys2Proof.Machine Sys2Proof.Laws

/-! ### The byte loops -/

@[simp] theorem appendBytes_len (bs : List Byte) (s : State) : (appendBytes bs s).len = s.len := by
  rw [appendBytes_frame]
@[simp] theorem appendBytes_abscnt (bs : List Byte) (s : State) : (appendBytes bs s).abscnt = s.abscnt := by
  rw [appendBytes_frame]
@[simp] theorem appendBytes_tbits (bs : List Byte) (s : State) : (appendBytes bs s).tbits = s.tbits := by
  rw [appendBytes_frame]
@[simp] theorem appendBytes_phase (bs : List Byte) (s : State) : (appendBytes bs s).phase = s.phase := by
  rw [appendBytes_frame]
@[simp] theorem appendBytes_errcode (bs : List Byte) (s : State) : (appendBytes bs s).errcode = s.errcode := by
  rw [appendBytes_frame]
@[simp] theorem appendBytes_drop (bs : List Byte) (s : State) : (appendBytes bs s).drop = s.drop := by
  rw [appendBytes_frame]
@[simp] theorem appendBytes_errinfo (bs : List Byte) (s : State) : (appendBytes bs s).errinfo = s.errinfo := by
  rw [appendBytes_frame]
@[simp] theorem appendBytes_digest (bs : List Byte) (s : State) : (appendBytes bs s).digest = s.digest := by
  rw [appendBytes_frame]
@[simp] theorem appendBytes_cfg (bs : List Byte) (s : State) : (appendBytes bs s).cfg = s.cfg := by
  rw [appendBytes_frame]
@[simp] theorem appendBytes_port (bs : List Byte) (s : State) : (appendBytes bs s).port = s.port := by
  rw [appendBytes_frame]
@[simp] theorem appendBytes_agenda (bs : List Byte) (s : State) : (appendBytes bs s).agenda = s.agenda := by
  rw [appendBytes_frame]
@[simp] theorem appendBytes_reads (bs : List Byte) (s : State) : (appendBytes bs s).reads = s.reads := by
  rw [appendBytes_frame]

@[simp] theorem absorbBytes_len (bs : List Byte) (s : State) : (absorbBytes bs s).len = s.len := by
  simp [absorbBytes_eq]
@[simp] theorem absorbBytes_tbits (bs : List Byte) (s : State) : (absorbBytes bs s).tbits = s.tbits := by
  simp [absorbBytes_eq]
@[simp] theorem absorbBytes_errcode (bs : List Byte) (s : State) : (absorbBytes bs s).errcode = s.errcode := by
  simp [absorbBytes_eq]
@[simp] theorem absorbBytes_drop (bs : List Byte) (s : State) : (absorbBytes bs s).drop = s.drop := by
  simp [absorbBytes_eq]
@[simp] theorem absorbBytes_errinfo (bs : List Byte) (s : State) : (absorbBytes bs s).errinfo = s.errinfo := by
  simp [absorbBytes_eq]
@[simp] theorem absorbBytes_digest (bs : List Byte) (s : State) : (absorbBytes bs s).digest = s.digest := by
  simp [absorbBytes_eq]
@[simp] theorem absorbBytes_cfg (bs : List Byte) (s : State) : (absorbBytes bs s).cfg = s.cfg := by
  simp [absorbBytes_eq]
@[simp] theorem absorbBytes_port (bs : List Byte) (s : State) : (absorbBytes bs s).port = s.port := by
  simp [absorbBytes_eq]
@[simp] theorem absorbBytes_agenda (bs : List Byte) (s : State) : (absorbBytes bs s).agenda = s.agenda := by
  simp [absorbBytes_eq]
@[simp] theorem absorbBytes_reads (bs : List Byte) (s : State) : (absorbBytes bs s).reads = s.reads := by
  simp [absorbBytes_eq]

/-- The absorb loop counts its bytes in ABSCNT, mod 2^64 (45_commands.md R195). -/
@[simp] theorem absorbBytes_abscnt (bs : List Byte) (s : State) :
    (absorbBytes bs s).abscnt = s.abscnt + BitVec.ofNat 64 bs.length := by
  simp [absorbBytes_eq]

/-- Bytes that have room under LEN do not wrap ABSCNT. -/
theorem absorbBytes_abscnt_toNat {bs : List Byte} {s : State} (h : s.abscnt.toNat + bs.length ≤ s.len.toNat) :
    (absorbBytes bs s).abscnt.toNat = s.abscnt.toNat + bs.length := by
  have hlen := s.len.isLt
  rw [absorbBytes_abscnt, BitVec.toNat_add, BitVec.toNat_ofNat, Nat.add_mod_mod, Nat.mod_eq_of_lt (by omega)]

theorem absorbBytes_bcnt (bs : List Byte) (s : State) :
    (absorbBytes bs s).bcnt.toNat = (s.bcnt.toNat + bs.length) % 64 := by
  rw [absorbBytes_eq]
  exact appendBytes_bcnt bs s

theorem absorbBytes_bidx (bs : List Byte) (s : State) :
    (absorbBytes bs s).bidx = s.bidx + BitVec.ofNat 32 ((s.bcnt.toNat + bs.length) / 64) := by
  rw [absorbBytes_eq]
  exact appendBytes_bidx bs s

/-! ### FINAL -/

@[simp] theorem finishMessage_phase (s : State) : (finishMessage s).phase = .done := rfl
@[simp] theorem finishMessage_len (s : State) : (finishMessage s).len = s.len := by simp [finishMessage]
@[simp] theorem finishMessage_abscnt (s : State) : (finishMessage s).abscnt = s.abscnt := by simp [finishMessage]
@[simp] theorem finishMessage_tbits (s : State) : (finishMessage s).tbits = s.tbits := by simp [finishMessage]
@[simp] theorem finishMessage_errcode (s : State) : (finishMessage s).errcode = s.errcode := by simp [finishMessage]
@[simp] theorem finishMessage_drop (s : State) : (finishMessage s).drop = s.drop := by simp [finishMessage]
@[simp] theorem finishMessage_errinfo (s : State) : (finishMessage s).errinfo = s.errinfo := by simp [finishMessage]
@[simp] theorem finishMessage_cfg (s : State) : (finishMessage s).cfg = s.cfg := by simp [finishMessage]
@[simp] theorem finishMessage_port (s : State) : (finishMessage s).port = s.port := by simp [finishMessage]
@[simp] theorem finishMessage_agenda (s : State) : (finishMessage s).agenda = s.agenda := by simp [finishMessage]
@[simp] theorem finishMessage_reads (s : State) : (finishMessage s).reads = s.reads := by simp [finishMessage]

/-- D is the Finalizer of the S that the last block left (45_commands.md R201). -/
@[simp] theorem finishMessage_digest (s : State) :
    (finishMessage s).digest = finalize s.cfg (finishMessage s).lanes s.tbits := by simp [finishMessage]

/-- The framing suffix ends on a block boundary (40_padder_segmenter.md R101). -/
@[simp] theorem finishMessage_bcnt (s : State) : (finishMessage s).bcnt = 0 := by
  have hpad := padZeros_completes s.bcnt.toNat
  refine BitVec.eq_of_toNat_eq ((appendBytes_bcnt _ s).trans (?_ : _ = 0))
  rw [framing_length]
  omega

/-- The framing suffix completes the NB blocks of the bytes held (40_padder_segmenter.md R102). -/
theorem finishMessage_bidx (s : State) :
    (finishMessage s).bidx = s.bidx + BitVec.ofNat 32 (numBlocks s.bcnt.toNat) := by
  have hblocks := add_padZeros_eq_numBlocks s.bcnt.toNat
  refine (appendBytes_bidx _ s).trans ?_
  rw [framing_length, hblocks, Nat.mul_div_cancel_left _ (by decide)]

/-! ### Every way to execute -/

/-- Every way a command can execute, one constructor each: the discard of phase ERROR (60_exceptions.md R223), the three
errors a command can raise (R227, R228, R229), and the effects of 45_commands.md R192-R202. -/
inductive Executes : Instr → State → State → Prop
  | discarded {i s} (hp : s.phase = .error) (hi : i ≠ .clr) : Executes i s (discard s)
  | badPhase {i s} (hp : s.phase ≠ .error) (hl : legalIn i s.phase = false) :
      Executes i s (raiseError .badPhase (encode i) s)
  | overrun {i s} (hp : s.phase = .absorb) (hi : isAbsorb i = true)
      (hroom : s.len.toNat < s.abscnt.toNat + (messageBytes i).length) :
      Executes i s (raiseError .overrun (encode i) s)
  | underrun {s} (hp : s.phase = .absorb) (hlen : s.abscnt.toNat < s.len.toNat) :
      Executes .final s (raiseError .underrun (encode .final) s)
  | nop {s} (hp : s.phase ≠ .error) : Executes .nop s s
  | start {s} (hp : s.phase = .idle ∨ s.phase = .done) : Executes .start s (beginMessage s)
  | setlen {k imm16 s} (hp : s.phase = .idle ∨ s.phase = .done) :
      Executes (.setlen k imm16) s { s with len := writeChunk s.len k imm16 }
  | absorb {i s} (hp : s.phase = .absorb) (hi : isAbsorb i = true)
      (hroom : s.abscnt.toNat + (messageBytes i).length ≤ s.len.toNat) :
      Executes i s (absorbBytes (messageBytes i) s)
  | final {s} (hp : s.phase = .absorb) (hlen : s.len.toNat ≤ s.abscnt.toNat) : Executes .final s (finishMessage s)
  | clr {s} : Executes .clr s (clearState s)

/-- An absorb command with room appends and counts its bytes (45_commands.md R195). -/
theorem exec_absorb {i : Instr} {s : State} (hi : isAbsorb i = true) (hp : s.phase = .absorb)
    (h : s.abscnt.toNat + (messageBytes i).length ≤ s.len.toNat) :
    exec i s = .next (absorbBytes (messageBytes i) s) := by
  rw [exec_of_legal (by rw [hp]; exact legalIn_absorb_of_isAbsorb hi), effectOf_of_isAbsorb hi, absorbOrOverrun,
    if_neg h.not_gt]

/-- SETLEN writes its chunk of LEN in IDLE and in DONE (45_commands.md R194). -/
theorem exec_setlen {k : BitVec 2} {imm16 : BitVec 16} {s : State} (hp : s.phase = .idle ∨ s.phase = .done) :
    exec (.setlen k imm16) s = .next { s with len := writeChunk s.len k imm16 } :=
  exec_of_legal (by rcases hp with hp | hp <;> rw [hp] <;> rfl)

/-- START and SETLEN are legal in IDLE and DONE only (45_commands.md R191). -/
theorem idle_or_done_of_legal {p : Phase} (h : (p == .idle || p == .done) = true) : p = .idle ∨ p = .done := by
  simpa using h

/-- A legal command executes in one of the ways its effect allows. -/
theorem executes_of_legal {i : Instr} {s : State} (hl : legalIn i s.phase = true) : Executes i s (effectOf i s) := by
  cases i with
  | nop => exact .nop (by simpa [legalIn] using hl)
  | start => exact .start (idle_or_done_of_legal hl)
  | setlen k imm16 => exact .setlen (idle_or_done_of_legal hl)
  | abs1 | abs2 | abs3 =>
    have hp : s.phase = .absorb := beq_iff_eq.mp hl
    rw [effectOf, absorbOrOverrun]
    split_ifs with hroom
    · exact .overrun hp rfl hroom
    · exact .absorb hp rfl (Nat.le_of_not_gt hroom)
  | final =>
    have hp : s.phase = .absorb := beq_iff_eq.mp hl
    rw [effectOf, finishOrUnderrun]
    split_ifs with hlen
    · exact .underrun hp hlen
    · exact .final hp (Nat.le_of_not_gt hlen)
  | clr => exact .clr

/-- What a command answers is one of its ways to execute. -/
theorem executes_of_exec {i : Instr} {s t : State} (h : exec i s = .next t) : Executes i s t := by
  obtain ⟨hl, he⟩ | ⟨hp, hi, he⟩ | ⟨hp, hl, -, he⟩ := exec_cases i s
  all_goals cases he.symm.trans h
  · exact executes_of_legal hl
  · exact .discarded hp hi
  · exact .badPhase hp hl

/-- Every command answers a next state (45_commands.md R190). -/
theorem exec_completes (i : Instr) (s : State) : ∃ t, exec i s = .next t := by
  obtain ⟨-, he⟩ | ⟨-, -, he⟩ | ⟨-, -, -, he⟩ := exec_cases i s <;> exact ⟨_, he⟩

/-- Every way a command word can execute: its command's, or the discard or the error entry of a word that is no
command (45_commands.md R191). -/
inductive ExecutesWord : Word → State → State → Prop
  | command {cw i s t} (hd : decode cw = .cmd i) (hx : Executes i s t) : ExecutesWord cw s t
  | discarded {cw s} (hp : s.phase = .error) : ExecutesWord cw s (discard s)
  | raised {cw s} (cause : ErrCause) (hp : s.phase ≠ .error) : ExecutesWord cw s (raiseError cause cw s)

/-- A rejected word is discarded in ERROR and raises its error elsewhere (60_exceptions.md R223, R225, R226). -/
theorem executesWord_rejectWord (cause : ErrCause) (cw : Word) (s : State) :
    ExecutesWord cw s (rejectWord cause cw s) := by
  by_cases hp : s.phase = .error
  · rw [rejectWord_in_error cause cw hp]; exact .discarded hp
  · rw [rejectWord_outside_error cause cw hp]; exact .raised cause hp

/-- What `Step(CW)` answers is one of the word's ways to execute. -/
theorem executesWord_of_stepWord {cw : Word} {s t : State} (h : stepWord cw s = .next t) : ExecutesWord cw s t := by
  unfold stepWord at h
  split at h
  next i hd => exact .command hd (executes_of_exec h)
  all_goals
    cases h
    exact executesWord_rejectWord _ cw s

/-- `Step(CW)` answers a next state for every word (45_commands.md R190). -/
theorem stepWord_completes (cw : Word) (s : State) : ∃ t, stepWord cw s = .next t := by
  unfold stepWord
  split
  next i hd => exact exec_completes i s
  all_goals exact ⟨_, rfl⟩

end Sys2Proof.Proofs
end

section
/-! SUPPORT. Proofs of the statements of 45_commands.md and 10_state.md about single commands: the data commands
(R195-R198), the pseudo-instructions (30_encoding.md R83), and what each command writes. -/

namespace Sys2Proof.Proofs

open Sys2Proof.Machine Sys2Proof.Laws

/-! ### The data commands -/

/-- Settles O31: ABS1 is one turn of the absorb loop, whose byte leaves room or fills the buffer. -/
theorem abs1AppendsOneByte : Obligations.Abs1AppendsOneByte := by
  intro s b0 hp hroom
  have hexec : exec (.abs1 b0) s = .next (appendByte b0 { s with abscnt := s.abscnt + 1 }) :=
    exec_absorb (i := .abs1 b0) rfl hp hroom
  refine ⟨fun h => ?_, fun h => ?_⟩
  · rw [hexec, appendByte_room b0 { s with abscnt := s.abscnt + 1 } h]
    rfl
  · rw [hexec, appendByte_full_eq b0 { s with abscnt := s.abscnt + 1 } h]

/-- With room for two runs of bytes, the ABS1 that follows the first has room for its own byte. -/
theorem exec_abs1_after {bs : List Byte} {b : Byte} {s : State} (hp : s.phase = .absorb)
    (h : s.abscnt.toNat + (bs.length + 1) ≤ s.len.toNat) :
    exec (.abs1 b) (absorbBytes bs s) = .next (absorbBytes [b] (absorbBytes bs s)) := by
  refine exec_absorb (i := .abs1 b) rfl (by simpa using hp) ?_
  rw [absorbBytes_abscnt_toNat (by omega), absorbBytes_len]
  simpa [messageBytes, Nat.add_assoc] using h

/-- Settles O32: the absorb loop over two bytes is its two turns, and the first leaves room for the second. -/
theorem abs2AppendsTwoBytes : Obligations.Abs2AppendsTwoBytes := by
  intro s b0 b1 hp hroom
  exact ⟨absorbBytes [b0] s, absorbBytes [b0, b1] s, exec_absorb (i := .abs1 b0) rfl hp (Nat.le_of_succ_le hroom),
    exec_abs1_after (bs := [b0]) hp hroom, exec_absorb (i := .abs2 b0 b1) rfl hp hroom⟩

/-- Settles O33: the absorb loop over three bytes is its three turns, and each leaves room for the next. -/
theorem abs3AppendsThreeBytes : Obligations.Abs3AppendsThreeBytes := by
  intro s b0 b1 b2 hp hroom
  exact ⟨absorbBytes [b0] s, absorbBytes [b0, b1] s, absorbBytes [b0, b1, b2] s,
    exec_absorb (i := .abs1 b0) rfl hp (by simp only [messageBytes, List.length_singleton]; omega),
    exec_abs1_after (bs := [b0]) hp (Nat.le_of_succ_le hroom),
    exec_abs1_after (bs := [b0, b1]) hp hroom, exec_absorb (i := .abs3 b0 b1 b2) rfl hp hroom⟩

/-- The byte loop writes B only at the positions of its bytes, from BCNT on and round the buffer (R199). -/
theorem appendBytes_buf_of_ne {bs : List Byte} {s : State} {k : Nat} (hk : k < 64)
    (h : ∀ q < bs.length, k ≠ (s.bcnt.toNat + q) % 64) : (appendBytes bs s).buf[k] = s.buf[k] := by
  induction bs generalizing s with
  | nil => rfl
  | cons b bs ih =>
    have hcap := s.bcnt.isLt
    have hfirst : k ≠ s.bcnt.toNat := by simpa [Nat.mod_eq_of_lt hcap] using h 0 (by simp)
    rw [appendBytes_cons, ih, appendByte_buf _ _ _ hk, if_neg hfirst]
    intro q hq
    have hnext := h (q + 1) (Nat.succ_lt_succ hq)
    rw [appendByte_bcnt]
    omega

theorem absorbBytes_buf (bs : List Byte) (s : State) : (absorbBytes bs s).buf = (appendBytes bs s).buf := by
  rw [absorbBytes_eq]

/-- Settles O34: the discards and the errors write only the error registers, and the absorb loop writes what
`appendBytes_frame` and `appendBytes_buf_of_ne` say. -/
theorem absorbFrame : Obligations.AbsorbFrame := by
  intro s t i hi h
  cases executes_of_exec h with
  | discarded | badPhase | overrun => exact ⟨rfl, fun _ _ => rfl⟩
  | absorb hp _ hroom =>
    refine ⟨?_, fun k hk => ?_⟩
    · rw [absorbBytes_eq, appendBytes_frame]
    · exact (congrArg (·[k]) (absorbBytes_buf _ s)).trans (appendBytes_buf_of_ne k.isLt hk)
  | nop | start | setlen | underrun | final | clr => cases hi

/-! ### The pseudo-instructions -/

@[simp] theorem execAll_nil (s : State) : execAll [] s = .next s := rfl

theorem execAll_cons {i : Instr} {is : List Instr} {s t : State} (h : exec i s = .next t) :
    execAll (i :: is) s = execAll is t := by
  simp only [execAll, h]

/-- The four chunks of v, written over any LEN, leave v: each bit lies in one chunk (R83, R194). -/
theorem writeChunk_four (len v : DWord) :
    writeChunk (writeChunk (writeChunk (writeChunk len 0 (v.extractLsb' 0 16)) 1 (v.extractLsb' 16 16)) 2
      (v.extractLsb' 32 16)) 3 (v.extractLsb' 48 16) = v := by
  refine BitVec.eq_of_getLsbD_eq fun j hj => ?_
  have h0 : (0 : BitVec 2).toNat = 0 := rfl
  have h1 : (1 : BitVec 2).toNat = 1 := rfl
  have h2 : (2 : BitVec 2).toNat = 2 := rfl
  have h3 : (3 : BitVec 2).toNat = 3 := rfl
  have hchunk : ∀ lo, lo ≤ j ∧ j < lo + 16 → (v.extractLsb' lo 16).getLsbD (j - lo) = v.getLsbD j := by
    intro lo hlo
    rw [BitVec.getLsbD_extractLsb', show lo + (j - lo) = j by omega]
    simp; omega
  simp only [writeChunk_getLsbD _ _ _ j hj, h0, h1, h2, h3]
  split_ifs with hj3 hj2 hj1 hj0
  · exact hchunk 48 hj3
  · exact hchunk 32 hj2
  · exact hchunk 16 hj1
  · exact hchunk 0 hj0
  · omega

/-- LEN64 sets LEN and nothing else (R83). -/
theorem execAll_len64 {s : State} (v : DWord) (hp : s.phase = .idle ∨ s.phase = .done) :
    execAll (len64 v) s = .next { s with len := v } := by
  rw [len64, execAll_cons (exec_setlen hp), execAll_cons (exec_setlen ?_), execAll_cons (exec_setlen ?_),
    execAll_cons (exec_setlen ?_), execAll_nil, writeChunk_four]
  all_goals exact hp

/-- The absorb commands of ABSORB carry the message's bytes, in order (R83). -/
theorem flatMap_messageBytes_absorbAll (m : List Byte) : (absorbAll m).flatMap messageBytes = m := by
  induction m using absorbAll.induct with
  | case1 b0 b1 b2 rest ih => simp [absorbAll, messageBytes, ih]
  | case2 | case3 | case4 => rfl

/-- ABSORB expands to absorb commands only (R83). -/
theorem isAbsorb_of_mem_absorbAll {m : List Byte} : ∀ i ∈ absorbAll m, isAbsorb i = true := by
  induction m using absorbAll.induct with
  | case1 b0 b1 b2 rest ih => simpa [absorbAll, isAbsorb] using ih
  | case2 | case3 | case4 => simp [absorbAll, isAbsorb]

/-- Settles O30: LEN64 by its four chunks, ABSORB by induction over the triples of the message. -/
theorem pseudoInstructionsExpand : Obligations.PseudoInstructionsExpand :=
  ⟨fun _ v hp => execAll_len64 v hp, fun m => ⟨flatMap_messageBytes_absorbAll m, isAbsorb_of_mem_absorbAll⟩⟩

/-! ### What only some commands write -/

/-- Settles O36: of the ways to execute, only SETLEN's names LEN. -/
theorem onlySetlenWritesLen : Obligations.OnlySetlenWritesLen := by
  intro s t i h hne
  cases executes_of_exec h with
  | setlen => exact absurd rfl (hne _ _)
  | discarded | badPhase | overrun | underrun | nop | start | absorb | final | clr => simp

/-- Settles O37: D changes where a message begins, where it finishes and at CLR; the phase tells these from the
errors. -/
theorem digestRegisterLifetime : Obligations.DigestRegisterLifetime := by
  intro s t i h
  cases executes_of_exec h with
  | discarded hp hi => cases i <;> simp_all
  | badPhase hp hl => cases i <;> simp_all [legalIn]
  | overrun hp hi | absorb hp hi => cases i <;> simp_all [isAbsorb]
  | start hp => rcases hp with hp | hp <;> simp [hp]
  | underrun | nop | setlen | final | clr => simp

/-- Settles O38: T changes where a message begins and at CLR. -/
theorem bitLengthIsLatched : Obligations.BitLengthIsLatched := by
  intro s t i h
  cases executes_of_exec h with
  | discarded hp hi => cases i <;> simp_all
  | badPhase hp hl => cases i <;> simp_all [legalIn]
  | overrun hp hi | absorb hp hi => cases i <;> simp_all [isAbsorb]
  | start hp => rcases hp with hp | hp <;> simp [hp, bitLength]
  | underrun | nop | setlen | final | clr => simp

/-- The host's side of the state is no command's to change. -/
theorem executes_keeps_host_side {i : Instr} {s t : State} (h : Executes i s t) :
    t.cfg = s.cfg ∧ t.port = s.port ∧ t.agenda = s.agenda ∧ t.reads = s.reads := by
  cases h <;> simp

/-- Settles O39: a command answers a next state, and no way to execute names the host's side. -/
theorem commandsCompleteAndKeepTheHostSide : Obligations.CommandsCompleteAndKeepTheHostSide := by
  intro s i
  obtain ⟨t, h⟩ := exec_completes i s
  exact ⟨t, h, executes_keeps_host_side (executes_of_exec h)⟩

/-- Settles O40: the phase after each way to execute. -/
theorem phaseChanges : Obligations.PhaseChanges := by
  intro s t i h
  cases executes_of_exec h with
  | discarded hp hi => exact .inr (.inl ⟨hi, hp⟩)
  | badPhase hp hl => exact .inr (.inl ⟨legalIn_eq_false_ne_clr hl, rfl⟩)
  | overrun hp hi => exact .inr (.inl ⟨(by rintro rfl; cases hi), rfl⟩)
  | underrun => exact .inr (.inl ⟨by decide, rfl⟩)
  | nop hp => exact .inr (.inr ⟨hp, rfl⟩)
  | start hp => exact .inr (.inr ⟨by rcases hp with hp | hp <;> simp [hp], hp, rfl⟩)
  | setlen hp => exact .inr (.inr ⟨by rcases hp with hp | hp <;> simp [hp], rfl⟩)
  | absorb hp hi => exact .inr (.inr ⟨by simp [hp], by cases i <;> simp_all [isAbsorb]⟩)
  | final hp => exact .inr (.inr ⟨by simp [hp], hp, rfl⟩)
  | clr => exact .inl ⟨rfl, rfl⟩

end Sys2Proof.Proofs
end

section
/-! SUPPORT. Proof of the statement about BIDX (70_reset_and_hazards.md R259): how many blocks each way to execute
compresses. -/

namespace Sys2Proof.Proofs

open Sys2Proof.Machine Sys2Proof.Laws

/-- An ABSn compresses the block its bytes fill, unless it raises an error (R259). -/
theorem blocksRun_of_isAbsorb {i : Instr} (hi : isAbsorb i = true) (s : State) :
    blocksRun i s = if s.phase = .absorb ∧ ¬ s.abscnt.toNat + (messageBytes i).length > s.len.toNat then
      (s.bcnt.toNat + (messageBytes i).length) / 64 else 0 := by
  cases i with
  | abs1 | abs2 | abs3 => rfl
  | nop | start | setlen | final | clr => cases hi

/-- FINAL compresses the NB blocks of the bytes held, unless it raises an error (R259). -/
theorem blocksRun_final (s : State) :
    blocksRun .final s =
      if s.phase = .absorb ∧ ¬ s.abscnt.toNat < s.len.toNat then numBlocks s.bcnt.toNat else 0 := by
  have hblocks := add_padZeros_eq_numBlocks s.bcnt.toNat
  have hdiv : (s.bcnt.toNat + 9 + padZeros s.bcnt.toNat) / 64 = numBlocks s.bcnt.toNat := by omega
  rw [← hdiv]
  rfl

/-- The control commands compress no block (R259). -/
theorem blocksRun_control {i : Instr} (hi : isAbsorb i = false) (hf : i ≠ .final) (s : State) : blocksRun i s = 0 := by
  cases i with
  | nop | start | setlen | clr => rfl
  | final => exact absurd rfl hf
  | abs1 | abs2 | abs3 => cases hi

/-- Outside ABSORB no command compresses a block (R259). -/
theorem blocksRun_outside_absorb (i : Instr) {s : State} (hp : s.phase ≠ .absorb) : blocksRun i s = 0 := by
  cases hi : isAbsorb i with
  | true => rw [blocksRun_of_isAbsorb hi, if_neg (fun h => hp h.1)]
  | false =>
    by_cases hf : i = .final
    · rw [hf, blocksRun_final, if_neg (fun h => hp h.1)]
    · exact blocksRun_control hi hf s

/-- A command the legal-command table shuts out compresses no block (60_exceptions.md R222). -/
theorem blocksRun_of_not_legal {i : Instr} {s : State} (hl : legalIn i s.phase = false) : blocksRun i s = 0 := by
  by_cases hp : s.phase = .absorb
  · rw [hp] at hl
    exact blocksRun_control (Bool.eq_false_iff.mpr fun hi => by simp [legalIn_absorb_of_isAbsorb hi] at hl)
      (by rintro rfl; cases hl) s
  · exact blocksRun_outside_absorb i hp

/-- BIDX advances by the blocks compressed, in every way to execute but the two that clear it. -/
theorem executes_bidx {i : Instr} {s t : State} (h : Executes i s t) (hstart : i ≠ .start) (hclr : i ≠ .clr) :
    t.bidx = s.bidx + BitVec.ofNat 32 (blocksRun i s) := by
  cases h with
  | discarded hp => simp [blocksRun_outside_absorb i (s := s) (by simp [hp])]
  | badPhase hp hl => simp [blocksRun_of_not_legal hl]
  | overrun hp hi hroom => simp [blocksRun_of_isAbsorb hi, hroom]
  | underrun hp hlen => simp [blocksRun_final, hlen]
  | nop | setlen => simp [blocksRun]
  | absorb hp hi hroom => rw [absorbBytes_bidx, blocksRun_of_isAbsorb hi, if_pos ⟨hp, hroom.not_gt⟩]
  | final hp hlen => rw [finishMessage_bidx, blocksRun_final, if_pos ⟨hp, hlen.not_gt⟩]
  | start => exact absurd rfl hstart
  | clr => exact absurd rfl hclr

/-- An ABSn carries at most three bytes (30_encoding.md R75). -/
theorem messageBytes_length_le (i : Instr) : (messageBytes i).length ≤ 3 := by
  cases i <;> simp [messageBytes]

/-- At most three bytes after fewer than 64 fill at most one block. -/
theorem blocksRun_absorb_le {i : Instr} (hi : isAbsorb i = true) (s : State) : blocksRun i s ≤ 1 := by
  have hbytes := messageBytes_length_le i
  have hcap := s.bcnt.isLt
  rw [blocksRun_of_isAbsorb hi]
  split_ifs <;> omega

/-- A FINAL that completes adds one block, or two when the length field does not fit in the first (R102). -/
theorem blocksRun_final_of_done {s t : State} (h : Executes .final s t) (ht : t.phase = .done) :
    blocksRun .final s = 1 ∨ blocksRun .final s = 2 := by
  cases h with
  | discarded hp => exact nomatch hp.symm.trans ht
  | badPhase | overrun | underrun => cases ht
  | absorb _ hi => cases hi
  | final hp hlen =>
    have hcap := s.bcnt.isLt
    rw [blocksRun_final, if_pos ⟨hp, hlen.not_gt⟩]
    unfold numBlocks
    omega

/-- Settles O41: BIDX by `executes_bidx`, the bounds by the number of bytes held and added. -/
theorem blockIndexCountsCompressions : Obligations.BlockIndexCountsCompressions := by
  intro s t i h hstart hclr
  have hx := executes_of_exec h
  refine ⟨executes_bidx hx hstart hclr, fun hi => blocksRun_absorb_le hi s, ?_, fun hi hf => blocksRun_control hi hf s⟩
  rintro rfl ht
  exact blocksRun_final_of_done hx ht

end Sys2Proof.Proofs
end

section
/-! SUPPORT. Proofs of the statements about every step: the invariant of the counters, the error registers and D
(10_state.md R25-R30, R34; 60_exceptions.md R220, R221), CFG (00_scope.md R6) and ABSCNT (10_state.md R28). -/

namespace Sys2Proof.Proofs

open Sys2Proof.Machine Sys2Proof.Laws

/-! ### Every way to step -/

/-- Every way a step can end, one constructor each: only the ports, the agenda or the record of reads move, the machine
is reset, or the held word executes (70_reset_and_hazards.md R260). -/
inductive Steps : State → State → Prop
  | ports {s} (p : Option Word) (a : List Event) (r : List Word) : Steps s { s with port := p, agenda := a, reads := r }
  | reset {s} (a : List Event) : Steps s (resetState { s with agenda := a })
  | word {s t} (cw : Word) (a : List Event) (hport : s.port = some cw)
      (hdue : s.agenda = [] ∨ ∃ rest, s.agenda = .accept :: rest)
      (hx : ExecutesWord cw { s with port := none, agenda := a } t) : Steps s t

/-- What a step answers is one of its ways to end. -/
theorem steps_of_step {s t : State} (h : step s = .next t) : Steps s t := by
  obtain ⟨-, ⟨-, -, rfl⟩ | ⟨hagenda, cw, hport, hx⟩ | ⟨e, rest, hagenda, hevent⟩⟩ := step_next_cases h
  · exact .ports t.port t.agenda t.reads
  · exact .word cw s.agenda hport (.inl hagenda) (executesWord_of_stepWord hx)
  · obtain ⟨cw, -, -, rfl⟩ | ⟨-, -, rfl⟩ | ⟨-, -, rfl⟩ | ⟨rfl, cw, hport, hx⟩ | ⟨i, -, rfl⟩ | ⟨-, rfl⟩ := hevent
    · exact .ports (some cw) rest s.reads
    · exact .ports s.port rest s.reads
    · exact .ports s.port rest s.reads
    · exact .word cw rest hport (.inr ⟨rest, hagenda⟩) (executesWord_of_stepWord hx)
    · exact .ports s.port rest (s.reads ++ [readPort i s])
    · exact .reset rest

/-- No way to execute a word names CFG. -/
theorem executesWord_cfg {cw : Word} {s t : State} (h : ExecutesWord cw s t) : t.cfg = s.cfg := by
  cases h with
  | command _ hx => exact (executes_keeps_host_side hx).1
  | discarded | raised => rfl

/-- Settles O44: no way to step names CFG. -/
theorem stepKeepsTheConfiguration : Obligations.StepKeepsTheConfiguration := by
  intro s t h
  cases steps_of_step h with
  | ports | reset => rfl
  | word cw a _ _ hx => exact (executesWord_cfg hx :)

/-! ### The invariant in each phase -/

theorem counterInv_of_idle {s : State} (hp : s.phase = .idle) : CounterInv s ↔ IdleCounters s := by
  simp [CounterInv, hp]
theorem counterInv_of_absorb {s : State} (hp : s.phase = .absorb) : CounterInv s ↔ AbsorbCounters s := by
  simp [CounterInv, hp]
theorem counterInv_of_done {s : State} (hp : s.phase = .done) : CounterInv s ↔ DoneCounters s := by
  simp [CounterInv, hp]

theorem counterInv_of_error {s : State} (hp : s.phase = .error) :
    CounterInv s ↔ IdleCounters s ∨ AbsorbCounters s ∨ DoneCounters s := by simp [CounterInv, hp]

theorem errorInv_of_error {s : State} (hp : s.phase = .error) :
    ErrorInv s ↔ 1 ≤ s.errcode.toNat ∧ s.errcode.toNat ≤ 5 := by simp [ErrorInv, hp]
theorem errorInv_outside_error {s : State} (hp : s.phase ≠ .error) :
    ErrorInv s ↔ s.errcode = 0 ∧ s.errinfo = 0 ∧ s.drop = false := by simp [ErrorInv, hp]

theorem digestInv_of_done {s : State} (hp : s.phase = .done) : DigestInv s := by simp [DigestInv, hp]
theorem digestInv_of_error {s : State} (hp : s.phase = .error) : DigestInv s := by simp [DigestInv, hp]

/-! ### The invariant after each way to execute -/

/-- The state after reset meets the invariant (10_state.md R39). -/
theorem stateInv_resetState (s : State) : StateInv (resetState s) :=
  ⟨⟨rfl, rfl, rfl⟩, ⟨rfl, rfl, rfl⟩, fun _ => rfl⟩

/-- Settles O42: every counter, error register and lane of D that the invariant names is 0 after reset. -/
theorem resetMeetsTheInvariant : Obligations.ResetMeetsTheInvariant :=
  ⟨⟨⟨rfl, rfl, rfl⟩, ⟨rfl, rfl, rfl⟩, fun _ => rfl⟩, Nat.le_refl 0⟩

/-- An error entry keeps the counters, in the form of the phase it was raised in (60_exceptions.md R221). -/
theorem stateInv_raiseError {s : State} (hs : StateInv s) (cause : ErrCause) (cw : Word) :
    StateInv (raiseError cause cw s) :=
  have hforms := counterInv_forms hs.1
  ⟨(counterInv_of_error rfl).mpr hforms, causeBits_range cause, digestInv_of_error rfl⟩

/-- A discard writes DROP, which the invariant leaves open in ERROR (60_exceptions.md R223). -/
theorem stateInv_discard {s : State} (hs : StateInv s) (hp : s.phase = .error) : StateInv (discard s) :=
  have ⟨hcounters, herror, _⟩ := hs
  ⟨hcounters, (errorInv_of_error (s := discard s) hp).mpr ((errorInv_of_error hp).mp herror), digestInv_of_error hp⟩

/-- START begins with no bytes, no blocks and D clear (45_commands.md R193). -/
theorem stateInv_beginMessage {s : State} (hs : StateInv s) (hp : s.phase = .idle ∨ s.phase = .done) :
    StateInv (beginMessage s) := by
  have hregs := (errorInv_outside_error (by rcases hp with hp | hp <;> simp [hp])).mp hs.2.1
  exact ⟨⟨Nat.zero_le _, rfl, by simp, rfl⟩, hregs, fun _ => rfl⟩

/-- In IDLE and in DONE the invariant does not read LEN (log entry 9). -/
theorem stateInv_with_len {s : State} (hs : StateInv s) (hp : s.phase = .idle ∨ s.phase = .done) (v : DWord) :
    StateInv { s with len := v } := by
  obtain ⟨hcounters, herror, hdigest⟩ := hs
  refine ⟨?_, herror, hdigest⟩
  rcases hp with hp | hp
  · exact (counterInv_of_idle (s := { s with len := v }) hp).mpr ((counterInv_of_idle hp).mp hcounters)
  · exact (counterInv_of_done (s := { s with len := v }) hp).mpr ((counterInv_of_done hp).mp hcounters)

/-- Bytes that have room keep the counters of a message in progress (10_state.md R25). -/
theorem absorbCounters_absorbBytes {bs : List Byte} {s : State} (hs : AbsorbCounters s)
    (hroom : s.abscnt.toNat + bs.length ≤ s.len.toNat) : AbsorbCounters (absorbBytes bs s) := by
  obtain ⟨-, hbcnt, hbidx, htbits⟩ := hs
  unfold AbsorbCounters
  rw [absorbBytes_abscnt_toNat hroom, absorbBytes_bcnt, absorbBytes_bidx, hbcnt, hbidx, ← BitVec.ofNat_add]
  refine ⟨by simpa using hroom, by omega, congrArg _ (by omega), by simpa using htbits⟩

theorem stateInv_absorbBytes {bs : List Byte} {s : State} (hs : StateInv s) (hp : s.phase = .absorb)
    (hroom : s.abscnt.toNat + bs.length ≤ s.len.toNat) : StateInv (absorbBytes bs s) := by
  obtain ⟨hcounters, herror, hdigest⟩ := hs
  have hp' : (absorbBytes bs s).phase = .absorb := by simpa using hp
  refine ⟨(counterInv_of_absorb hp').mpr (absorbCounters_absorbBytes ((counterInv_of_absorb hp).mp hcounters) hroom),
    ?_, fun _ => by simpa using hdigest (.inr hp)⟩
  rw [errorInv_outside_error (by simp [hp])] at herror ⊢
  simpa using herror

/-- A FINAL that completes has reached LEN exactly (45_commands.md R195, R201). -/
theorem abscnt_eq_len_of_final {s : State} (hs : StateInv s) (hp : s.phase = .absorb)
    (hlen : s.len.toNat ≤ s.abscnt.toNat) : s.abscnt = s.len := by
  obtain ⟨hwithin, -⟩ := (counterInv_of_absorb hp).mp hs.1
  exact BitVec.eq_of_toNat_eq (Nat.le_antisymm hwithin hlen)

/-- A finished message has its NB blocks counted, and T is the bit length of what was absorbed (10_state.md R25). -/
theorem stateInv_finishMessage {s : State} (hs : StateInv s) (hp : s.phase = .absorb)
    (hlen : s.len.toNat ≤ s.abscnt.toNat) : StateInv (finishMessage s) := by
  obtain ⟨-, hbcnt, hbidx, htbits⟩ := (counterInv_of_absorb hp).mp hs.1
  have herror := (errorInv_outside_error (by simp [hp])).mp hs.2.1
  refine ⟨⟨finishMessage_bcnt s, ?_, ?_⟩, (errorInv_outside_error (by simp)).mpr (by simpa using herror),
    digestInv_of_done rfl⟩
  · rw [finishMessage_bidx, finishMessage_abscnt, hbcnt, hbidx, ← BitVec.ofNat_add]
    exact congrArg _ (by unfold numBlocks; omega)
  · rw [finishMessage_tbits, finishMessage_abscnt, htbits, abscnt_eq_len_of_final hs hp hlen]

/-- CLR leaves every counter, error register and lane of D at 0 (45_commands.md R202). -/
theorem stateInv_clearState (s : State) : StateInv (clearState s) :=
  ⟨⟨rfl, rfl, rfl⟩, ⟨rfl, rfl, rfl⟩, fun _ => rfl⟩

theorem executes_stateInv {i : Instr} {s t : State} (h : Executes i s t) (hs : StateInv s) : StateInv t := by
  cases h with
  | discarded hp => exact stateInv_discard hs hp
  | badPhase | overrun | underrun => exact stateInv_raiseError hs _ _
  | nop => exact hs
  | start hp => exact stateInv_beginMessage hs hp
  | setlen hp => exact stateInv_with_len hs hp _
  | absorb hp _ hroom => exact stateInv_absorbBytes hs hp hroom
  | final hp hlen => exact stateInv_finishMessage hs hp hlen
  | clr => exact stateInv_clearState s

theorem executesWord_stateInv {cw : Word} {s t : State} (h : ExecutesWord cw s t) (hs : StateInv s) : StateInv t := by
  cases h with
  | command _ hx => exact executes_stateInv hx hs
  | discarded hp => exact stateInv_discard hs hp
  | raised cause _ => exact stateInv_raiseError hs cause cw

/-- The invariant does not read the ports, the agenda or the record of reads. -/
theorem stateInv_with_ports {s : State} (hs : StateInv s) (p : Option Word) (a : List Event) (r : List Word) :
    StateInv { s with port := p, agenda := a, reads := r } :=
  stateInv_congr hs rfl rfl rfl rfl rfl rfl rfl rfl rfl rfl

/-- Settles O43: the host's moves are outside the invariant, reset meets it, and every way to execute keeps it. -/
theorem stepKeepsTheInvariant : Obligations.StepKeepsTheInvariant := by
  intro s t hs h
  cases steps_of_step h with
  | ports p a r => exact stateInv_with_ports hs p a r
  | reset => exact stateInv_resetState _
  | word cw a _ _ hx => exact executesWord_stateInv hx (stateInv_with_ports hs none a s.reads)

/-! ### ABSCNT -/

/-- Every way to execute but a SETLEN in DONE keeps ABSCNT within LEN (log entry 9). -/
theorem executes_abscntWithinLen {i : Instr} {s t : State} (h : Executes i s t) (hs : StateInv s)
    (hwithin : AbscntWithinLen s) (hdone : s.phase = .done → ∀ k imm16, i ≠ .setlen k imm16) : AbscntWithinLen t := by
  cases h with
  | discarded | badPhase | overrun | underrun | nop => exact hwithin
  | start | clr => exact Nat.zero_le _
  | setlen hp =>
    rcases hp with hp | hp
    · obtain ⟨habscnt, -⟩ := (counterInv_of_idle hp).mp hs.1
      simp [AbscntWithinLen, habscnt]
    · exact absurd rfl (hdone hp _ _)
  | absorb _ _ hroom => rwa [AbscntWithinLen, absorbBytes_abscnt_toNat hroom, absorbBytes_len]
  | final => simpa [AbscntWithinLen] using hwithin

/-- A FINAL that leads to DONE has finished a message of the declared length. -/
theorem abscnt_eq_len_of_done {s t : State} (hs : StateInv s) (h : Executes .final s t) (ht : t.phase = .done) :
    t.abscnt = t.len := by
  cases h with
  | discarded hp => exact nomatch hp.symm.trans ht
  | badPhase | overrun | underrun => cases ht
  | absorb _ hi => cases hi
  | final hp hlen => simpa using abscnt_eq_len_of_final hs hp hlen

/-- Settles O60: ABSCNT by the way the command executes, which the phase tells; the bound by
`executes_abscntWithinLen`, where the SETLEN executed in DONE is the one the hypothesis shuts out. -/
theorem abscntCountsAndStaysWithinLen : Obligations.AbscntCountsAndStaysWithinLen := by
  refine ⟨fun s t i h => ?_, fun s t hs h ht => abscnt_eq_len_of_done hs (executes_of_exec h) ht,
    fun s t hs hwithin hdue h => ?_⟩
  · cases executes_of_exec h with
    | discarded hp hi => cases i <;> simp_all
    | badPhase hp hl => cases i <;> simp_all [legalIn]
    | overrun hp hi => cases i <;> simp_all [isAbsorb]
    | absorb hp hi => cases i <;> simp_all [isAbsorb, messageBytes, BitVec.add_assoc]
    | start hp => rcases hp with hp | hp <;> simp [hp]
    | underrun | nop | setlen | final | clr => simp
  cases steps_of_step h with
  | ports => exact hwithin
  | reset => exact Nat.le_refl 0
  | word cw a hport hagenda hx =>
    cases hx with
    | discarded | raised => exact hwithin
    | command hd hx =>
      refine executes_abscntWithinLen hx (stateInv_with_ports hs none a s.reads) hwithin fun hp k imm16 hi => ?_
      exact hdue ⟨hp, hagenda, cw, k, imm16, hport, hi ▸ hd⟩

/-- A finished message of three bytes, with its length still declared. -/
def threeByteMessageDone : State :=
  { State.reset with phase := .done, len := 3, abscnt := 3, bidx := 1, tbits := 24 }

theorem stateInv_threeByteMessageDone : StateInv threeByteMessageDone :=
  ⟨⟨rfl, rfl, rfl⟩, ⟨rfl, rfl, rfl⟩, digestInv_of_done rfl⟩

/-- Settles O45: `SETLEN 0, 0` after a message of three bytes declares an empty next message. -/
theorem setlenInDoneCanPassBelowAbscnt : Obligations.SetlenInDoneCanPassBelowAbscnt :=
  ⟨threeByteMessageDone, _, stateInv_threeByteMessageDone, rfl, by decide, exec_setlen (.inr rfl), by decide⟩

end Sys2Proof.Proofs
end

section
/-! SUPPORT. Proofs of the statements of 10_state.md about the bytes of B at BCNT and above (R26) and about what START
leaves of the last message (R38): every operation keeps two states alike that differ in stale bytes only. -/

namespace Sys2Proof.Proofs

open Sys2Proof.Machine Sys2Proof.Laws

@[refl] theorem sameButStale_refl (s : State) : SameButStale s s := ⟨s.buf, rfl, fun _ _ => rfl⟩

theorem sameButStale_phase {s t : State} (h : SameButStale s t) : t.phase = s.phase := by
  obtain ⟨b, rfl, -⟩ := h
  rfl

/-- A byte is written at BCNT, just below the stale bytes; the byte at 63 leaves none of them to be compressed. -/
theorem sameButStale_appendByte {s t : State} (h : SameButStale s t) (x : Byte) :
    SameButStale (appendByte x s) (appendByte x t) := by
  obtain ⟨b, rfl, hb⟩ := h
  have hcap := s.bcnt.isLt
  have hset : ∀ k (hk : k < 64), k ≤ s.bcnt.toNat → (b.set s.bcnt.toNat x)[k] = (s.buf.set s.bcnt.toNat x)[k] := by
    intro k hk hle
    rw [Vector.getElem_set, Vector.getElem_set]
    split_ifs with heq
    · rfl
    · exact hb ⟨k, hk⟩ (Nat.lt_of_le_of_ne hle (Ne.symm heq))
  obtain ⟨hroom, -⟩ | ⟨hfull, -⟩ := appendByte_cases x s
  · rw [appendByte_room x s hroom, appendByte_room x { s with buf := b } hroom]
    refine ⟨b.set s.bcnt.toNat x, rfl, fun k hk => hset k k.isLt ?_⟩
    have hlt : k.val < (s.bcnt.toNat + 1) % 64 := hk
    omega
  · have hbuf : b.set s.bcnt.toNat x = s.buf.set s.bcnt.toNat x :=
      Vector.ext fun k hk => hset k hk (by omega)
    have hwrite : bufWrite x { s with buf := b } = bufWrite x s := by simp only [bufWrite, hbuf]
    rw [appendByte_full x s hfull, appendByte_full x { s with buf := b } hfull, hwrite]

theorem sameButStale_appendBytes {s t : State} (h : SameButStale s t) (bs : List Byte) :
    SameButStale (appendBytes bs s) (appendBytes bs t) := by
  induction bs generalizing s t with
  | nil => exact h
  | cons b bs ih => exact ih (sameButStale_appendByte h b)

theorem sameButStale_absorbBytes {s t : State} (h : SameButStale s t) (bs : List Byte) :
    SameButStale (absorbBytes bs s) (absorbBytes bs t) := by
  obtain ⟨b, heq, hb⟩ := sameButStale_appendBytes h bs
  obtain ⟨_, rfl, -⟩ := h
  rw [absorbBytes_eq, absorbBytes_eq, heq]
  exact ⟨b, rfl, hb⟩

theorem sameButStale_absorbOrOverrun {s t : State} (h : SameButStale s t) (i : Instr) (bs : List Byte) :
    SameButStale (absorbOrOverrun i bs s) (absorbOrOverrun i bs t) := by
  have habsorb := sameButStale_absorbBytes h bs
  obtain ⟨b, rfl, hb⟩ := h
  unfold absorbOrOverrun
  dsimp only
  split_ifs
  · exact ⟨b, rfl, hb⟩
  · exact habsorb

/-- FINAL pads from BCNT on, and its Finalizer reads S alone. -/
theorem sameButStale_finishOrUnderrun {s t : State} (h : SameButStale s t) :
    SameButStale (finishOrUnderrun s) (finishOrUnderrun t) := by
  obtain ⟨b', heq, hb'⟩ := sameButStale_appendBytes h (framing (padZeros s.bcnt.toNat) s.tbits)
  obtain ⟨b, rfl, hb⟩ := h
  unfold finishOrUnderrun
  dsimp only
  split_ifs
  · exact ⟨b, rfl, hb⟩
  · refine ⟨b', ?_, hb'⟩
    simp only [finishMessage, heq]

theorem sameButStale_effectOf {s t : State} (h : SameButStale s t) (i : Instr) :
    SameButStale (effectOf i s) (effectOf i t) := by
  cases i with
  | nop => exact h
  | start =>
    obtain ⟨b, rfl, -⟩ := h
    exact ⟨b, rfl, fun k hk => absurd hk (Nat.not_lt_zero _)⟩
  | setlen k imm16 =>
    obtain ⟨b, rfl, hb⟩ := h
    exact ⟨b, rfl, hb⟩
  | abs1 | abs2 | abs3 => exact sameButStale_absorbOrOverrun h _ _
  | final => exact sameButStale_finishOrUnderrun h
  | clr =>
    obtain ⟨b, rfl, -⟩ := h
    exact sameButStale_refl _

/-- Settles O46: the gate reads the phase, in which the two states agree, and behind it every effect keeps them
alike. -/
theorem staleBytesAreNeverRead : Obligations.StaleBytesAreNeverRead := by
  intro s t s' i hst h
  have hphase := sameButStale_phase hst
  obtain ⟨hl, he⟩ | ⟨hp, hi, he⟩ | ⟨hp, hl, -, he⟩ := exec_cases i s
  all_goals cases he.symm.trans h
  · exact ⟨effectOf i t, exec_of_legal (hphase ▸ hl), sameButStale_effectOf hst i⟩
  · obtain ⟨b, rfl, hb⟩ := hst
    exact ⟨_, exec_in_error hp hi, b, rfl, hb⟩
  · obtain ⟨b, rfl, hb⟩ := hst
    exact ⟨_, exec_of_not_legal hp hl, b, rfl, hb⟩

/-- Settles O47: START writes every field in which the two states differ but B, and leaves BCNT = 0, so that all of B is
stale. -/
theorem startForgetsThePast : Obligations.StartForgetsThePast := by
  intro s s' l d b n a v x p hp hp' h
  cases (exec_start hp).symm.trans h
  exact ⟨_, exec_start hp', b, rfl, fun k hk => absurd hk (Nat.not_lt_zero _)⟩

end Sys2Proof.Proofs
end

section
/-! SUPPORT. Proofs of the statements about the step, the ports and the reads (70_reset_and_hazards.md R250-R260;
10_state.md R32-R38) and about CFG (00_scope.md R6). -/

namespace Sys2Proof.Proofs

open Sys2Proof.Machine Sys2Proof.Laws

/-! ### The step -/

/-- With a valid CFG a step is the first event of the agenda. -/
theorem step_of_event {s : State} {e : Event} {rest : List Event} (hc : s.cfg.ok = true) (ha : s.agenda = e :: rest) :
    step s = handleEvent e { s with agenda := rest } := by
  simp only [step, advance, if_pos hc, ha]

/-- With a valid CFG and nothing to come a step is the acceptance of the held word, if there is one (R259). -/
theorem step_of_empty_agenda {s : State} (hc : s.cfg.ok = true) (ha : s.agenda = []) : step s = acceptWord s := by
  simp only [step, advance, if_pos hc, ha]

/-- Every step refuses a CFG out of its constraints (00_scope.md R6). -/
theorem step_of_invalid_cfg {s : State} (hc : s.cfg.ok = false) : step s = .refused .invalidConfig := by
  simp [step, advance, hc]

/-- The port accepts the held word: `Step(CW)` with the port free again (R255). -/
theorem acceptWord_of_held {s : State} {cw : Word} (hp : s.port = some cw) :
    acceptWord s = stepWord cw { s with port := none } := by
  simp only [acceptWord, hp]

theorem acceptWord_of_free {s : State} (hp : s.port = none) : acceptWord s = .next s := by
  simp only [acceptWord, hp]

theorem stepWord_of_decode {cw : Word} {i : Instr} (h : decode cw = .cmd i) (s : State) :
    stepWord cw s = exec i s := by
  simp only [stepWord, h]

/-- Settles O7: the acceptance is `Step(CW)`, and `Step(CW)` of a command's word is the command's meaning. -/
theorem stepRunsTheDecodedCommand : Obligations.StepRunsTheDecodedCommand := by
  intro s cw i hc hp hd
  refine ⟨fun rest ha => ?_, fun ha => ?_⟩
  · rw [step_of_event hc ha, handleEvent, acceptWord_of_held (s := { s with agenda := rest }) hp,
      stepWord_of_decode hd]
  · rw [step_of_empty_agenda hc ha, acceptWord_of_held hp, stepWord_of_decode hd]

/-- Settles O8: `withFetchWord` holds the word with its acceptance first on the agenda, and a word below 2^32 is its own
table word. -/
theorem stepRunsTheHeldWord : Obligations.StepRunsTheHeldWord := by
  intro s w hc hw
  have hword : tableWord 32 w = BitVec.ofNat 32 w := by rw [tableWord, Nat.mod_eq_of_lt hw]
  rw [State.withFetchWord, hword, step_of_event (s := holdWord (BitVec.ofNat 32 w) s) hc rfl]
  rfl

/-- Settles O13: with no word held the core waits. -/
theorem idleCoreKeepsItsState : Obligations.IdleCoreKeepsItsState := by
  intro s hc hp ha
  rw [step_of_empty_agenda hc ha, acceptWord_of_free hp]

/-- Settles O14: a read is an event of its own, and the reserved indices are those of `readPort_reserved`. -/
theorem readHasNoSideEffect : Obligations.ReadHasNoSideEffect := fun s _ _ hc ha =>
  ⟨step_of_event hc ha, readPort_reserved s⟩

/-- STATUS reads 0 after reset (10_state.md R39). -/
theorem statusWord_resetState (s : State) : statusWord (resetState s) = 0 := by
  simp only [statusWord, errFlag, dvalid, resetState_phase, resetState_errcode, resetState_drop]
  decide

/-- Settles O15: the step is `resetState`, whose fields are those of `State.reset` but for the model's own. -/
theorem resetTakesEveryFieldToItsResetValue : Obligations.ResetTakesEveryFieldToItsResetValue := by
  intro s rest hc ha
  exact ⟨resetState { s with agenda := rest }, step_of_event hc ha, rfl, fun k => reset_buf_getElem k k.isLt, rfl, rfl,
    rfl, rfl, rfl, rfl, rfl, rfl, rfl, rfl, statusWord_resetState _, rfl, rfl, rfl, rfl⟩

/-! ### Faults and refusals -/

/-- An acceptance answers a next state, with and without a held word (R255, R259). -/
theorem acceptWord_completes (s : State) : ∃ t, acceptWord s = .next t := by
  cases hp : s.port with
  | none => exact ⟨s, acceptWord_of_free hp⟩
  | some cw =>
    rw [acceptWord_of_held hp]
    exact stepWord_completes cw _

/-- An event answers a next state, or it breaks the handshake (R255). -/
theorem handleEvent_cases (e : Event) (s : State) :
    (∃ t, handleEvent e s = .next t) ∨
    (handleEvent e s = .refused .handshakeBroken ∧ s.port.isSome ∧ (e = .withdraw ∨ ∃ cw, e = .present cw)) := by
  cases e with
  | present cw =>
    cases hp : s.port with
    | none => exact .inl ⟨{ s with port := some cw }, by simp only [handleEvent, hp]⟩
    | some held => exact .inr ⟨by simp only [handleEvent, hp], rfl, .inr ⟨cw, rfl⟩⟩
  | withdraw =>
    cases hp : s.port with
    | none => exact .inl ⟨s, by simp only [handleEvent, hp]⟩
    | some held => exact .inr ⟨by simp only [handleEvent, hp], rfl, .inl rfl⟩
  | accept => exact .inl (acceptWord_completes s)
  | read i => exact .inl ⟨_, rfl⟩
  | reset => exact .inl ⟨_, rfl⟩

/-- Every answer of a step: the refusal of an invalid CFG, a next state, or the refusal of a broken handshake. -/
theorem step_cases (s : State) :
    (s.cfg.ok = false ∧ step s = .refused .invalidConfig) ∨
    (s.cfg.ok = true ∧ ∃ t, step s = .next t) ∨
    (s.cfg.ok = true ∧ step s = .refused .handshakeBroken ∧ s.port.isSome ∧
      ∃ rest, s.agenda = .withdraw :: rest ∨ ∃ cw, s.agenda = .present cw :: rest) := by
  cases hc : s.cfg.ok with
  | false => exact .inl ⟨rfl, step_of_invalid_cfg hc⟩
  | true =>
    refine .inr ?_
    cases ha : s.agenda with
    | nil =>
      rw [step_of_empty_agenda hc ha]
      exact .inl ⟨rfl, acceptWord_completes s⟩
    | cons e rest =>
      rw [step_of_event hc ha]
      obtain hnext | ⟨hbroken, hheld, hevent⟩ := handleEvent_cases e { s with agenda := rest }
      · exact .inl ⟨rfl, hnext⟩
      · refine .inr ⟨rfl, hbroken, hheld, rest, ?_⟩
        obtain rfl | ⟨cw, rfl⟩ := hevent
        · exact .inl rfl
        · exact .inr ⟨cw, rfl⟩

/-- Settles O11: `step_cases` lists every answer, and no fault is among them. -/
theorem stepNeverFaultsAndRefusesOnlyByName : Obligations.StepNeverFaultsAndRefusesOnlyByName := by
  intro s
  obtain ⟨hc, h⟩ | ⟨-, t, h⟩ | ⟨-, h, hbroken⟩ := step_cases s <;> rw [h]
  · refine ⟨nofun, fun r hr => ?_⟩
    cases hr
    exact .inl ⟨rfl, hc⟩
  · exact ⟨nofun, nofun⟩
  · refine ⟨nofun, fun r hr => ?_⟩
    cases hr
    exact .inr ⟨rfl, hbroken⟩

/-- A step refuses CFG exactly when it breaks a constraint. -/
theorem step_eq_invalidConfig_iff (s : State) : step s = .refused .invalidConfig ↔ s.cfg.ok = false := by
  refine ⟨fun h => ?_, step_of_invalid_cfg⟩
  obtain ⟨hc, -⟩ | ⟨-, t, ht⟩ | ⟨-, hr, -⟩ := step_cases s
  · exact hc
  · exact nomatch ht.symm.trans h
  · exact nomatch hr.symm.trans h

/-! ### The constraints on CFG -/

theorem ivDistinct_iff (c : Cfg) : c.ivDistinct = true ↔ [c.iv.s0, c.iv.s1, c.iv.s2, c.iv.s3].Nodup := by
  simp [Cfg.ivDistinct, and_assoc]

/-- A rotate table is in range when each of its entries is. -/
theorem vector_all_le_iff {n : Nat} (v : Vector Nat n) : (∀ x ∈ v.toList, x ≤ 31) ↔ ∀ i : Fin n, v[i] < 32 := by
  simp [Vector.forall_mem_iff_forall_getElem, Fin.forall_iff, Nat.lt_succ_iff]

theorem rotatesInRange_iff (c : Cfg) : c.rotatesInRange = true ↔
    c.saR1 < 32 ∧ c.dsR2 < 32 ∧ c.dsR3 < 32 ∧ (∀ i : Fin 16, c.saRot[i] < 32) ∧
      ∀ i : Fin 4, c.cr[i] < 32 ∧ c.sr[i] < 32 := by
  simp only [Cfg.rotatesInRange, List.all_eq_true, List.cons_append, List.forall_mem_cons, List.forall_mem_append,
    decide_eq_true_eq, vector_all_le_iff, Nat.lt_succ_iff, forall_and, and_assoc]

/-- Oddness is bit 0. -/
theorem constantsOdd_iff (c : Cfg) :
    c.constantsOdd = true ↔ ∀ k ∈ [c.fk2, c.fk3, c.m1, c.m2], k.getLsbD 0 = true := by
  simp [Cfg.constantsOdd, BitVec.getLsbD]

/-- The constraints of R6, each in the words of the spec. -/
theorem cfg_ok_iff (c : Cfg) : c.ok = true ↔
    [c.iv.s0, c.iv.s1, c.iv.s2, c.iv.s3].Nodup ∧ (∀ k ∈ [c.fk2, c.fk3, c.m1, c.m2], k.getLsbD 0 = true) ∧
      c.saR1 < 32 ∧ c.dsR2 < 32 ∧ c.dsR3 < 32 ∧ (∀ i : Fin 16, c.saRot[i] < 32) ∧
      ∀ i : Fin 4, c.cr[i] < 32 ∧ c.sr[i] < 32 := by
  rw [← ivDistinct_iff, ← constantsOdd_iff, ← rotatesInRange_iff, Cfg.ok, Bool.and_eq_true, Bool.and_eq_true, and_assoc,
    and_comm (a := c.rotatesInRange = true)]

/-- Settles O10: the step refuses CFG when `Cfg.ok` fails, and `Cfg.ok` is R6's list. -/
theorem invalidConfigurationIsRefused : Obligations.InvalidConfigurationIsRefused := by
  intro s
  rw [step_eq_invalidConfig_iff, ← cfg_ok_iff, Bool.not_eq_true]

/-! ### The held word -/

/-- No way to execute a word writes the port. -/
theorem executesWord_port {cw : Word} {s t : State} (h : ExecutesWord cw s t) : t.port = s.port := by
  cases h with
  | command _ hx => exact (executes_keeps_host_side hx).2.1
  | discarded | raised => rfl

/-- Settles O12: of the ways a step can end, only an acceptance and a reset touch a held word. -/
theorem heldWordIsNeverLost : Obligations.HeldWordIsNeverLost := by
  intro s t cw hp h
  have haccepted : ∀ cw' a, s.port = some cw' → stepWord cw' { s with port := none, agenda := a } = .next t →
      t.port = none ∧ stepWord cw { s with port := none, agenda := a } = .next t := by
    intro cw' a hp' hx
    cases hp.symm.trans hp'
    exact ⟨executesWord_port (executesWord_of_stepWord hx), hx⟩
  obtain ⟨-, ⟨-, hfree, -⟩ | ⟨ha, cw', hp', hx⟩ | ⟨e, rest, ha, hevent⟩⟩ := step_next_cases h
  · exact nomatch hp.symm.trans hfree
  · exact .inr (.inr (by rw [ha]; exact haccepted cw' [] hp' (by rw [← ha]; exact hx)))
  · rw [ha]
    obtain ⟨_, -, hfree, -⟩ | ⟨-, hfree, -⟩ | ⟨-, hfree, -⟩ | ⟨rfl, cw', hp', hx⟩ | ⟨i, -, rfl⟩ | ⟨rfl, -⟩ := hevent
    · exact nomatch hp.symm.trans hfree
    · exact nomatch hp.symm.trans hfree
    · exact nomatch hp.symm.trans hfree
    · exact .inr (.inr (haccepted cw' rest hp' hx))
    · exact .inl hp
    · exact .inr (.inl ⟨rest, rfl⟩)

/-! ### The reads -/

/-- The fields of a word put together as STATUS is (10_state.md R32). -/
theorem fields_of_append {z20 : BitVec 20} {code : BitVec 4} {z3 : BitVec 3} {drop err dvalid : Bool} {p : BitVec 2}
    {w : BitVec (20 + 4 + 3 + 1 + 1 + 1 + 2)}
    (hw : w = z20 ++ code ++ z3 ++ BitVec.ofBool drop ++ BitVec.ofBool err ++ BitVec.ofBool dvalid ++ p) :
    w.extractLsb' 0 2 = p ∧ w.getLsbD 2 = dvalid ∧ w.getLsbD 3 = err ∧ w.getLsbD 4 = drop ∧
      w.extractLsb' 5 3 = z3 ∧ w.extractLsb' 8 4 = code ∧ w.extractLsb' 12 20 = z20 := by
  subst hw
  refine ⟨?_, ?_, ?_, ?_, ?_, ?_, ?_⟩ <;>
    simp [-Nat.reduceAdd, BitVec.getElem_append, BitVec.extractLsb'_append_eq_of_le, BitVec.extractLsb'_append_eq_right]

/-- Settles O18: STATUS is the concatenation of its fields, of 2, 1, 1, 1, 3, 4 and 20 bits. -/
theorem statusFields : Obligations.StatusFields := by
  intro s
  obtain ⟨hphase, hdvalid, herr, hdrop, hz3, hcode, hz20⟩ := fields_of_append (w := statusWord s) rfl
  exact ⟨hphase.trans (by cases s.phase <;> rfl), hdvalid, herr, hdrop, hz3, hcode, hz20⟩

/-- Settles O19: no index reads S, B or TBITS. -/
theorem readsCannotSeeHiddenState : Obligations.ReadsCannotSeeHiddenState := by
  rintro s _ ⟨l, b, v, rfl⟩
  rfl

end Sys2Proof.Proofs
end

section
/-! SUPPORT. Proofs of the statements about padded messages and the Word Extractor (40_padder_segmenter.md R100-R103;
41_word_extractor.md R120; 44_finalizer.md R176) and about what Stage A reads (42_word_scheduler.md R131). -/

namespace Sys2Proof.Proofs

open Sys2Proof.Machine Sys2Proof.Laws

/-! ### The padded message -/

/-- Read as a big-endian number, `be64bytes(v)` is v (00_scope.md R10). -/
theorem foldl_be64bytes (v : DWord) : (be64bytes v).foldl (fun n b => n * 256 + b.toNat) 0 = v.toNat := by
  have hv := v.isLt
  simp only [be64bytes, List.foldl_cons, List.foldl_nil, BitVec.extractLsb'_toNat, Nat.shiftRight_eq_div_pow]
  omega

/-- T is the bit length mod 2^64 (40_padder_segmenter.md R100). -/
theorem bitLength_ofNat_toNat (n : Nat) : (bitLength (BitVec.ofNat 64 n)).toNat = 8 * n % 2 ^ 64 := by
  rw [bitLength, BitVec.toNat_mul, BitVec.toNat_ofNat, Nat.mod_mul_mod, Nat.mul_comm]
  rfl

/-- A padded message is the message and its marker, the zeros, the length field (R100). -/
theorem pad_eq (m : List Byte) : pad m = (m ++ [0x80]) ++
    (List.replicate (padZeros m.length) 0 ++ be64bytes (bitLength (BitVec.ofNat 64 m.length))) := by
  simp [pad, framing]

/-- Settles O49: the length by `pad_length`, the two ends by the cut of `pad_eq`. -/
theorem paddedMessageShape : Obligations.PaddedMessageShape := by
  intro m
  have hlen : (pad m).length = m.length + (padZeros m.length + 9) := by
    rw [pad_length, add_padZeros_eq_numBlocks]
  refine ⟨pad_length m, by omega, ?_, ?_⟩
  · rw [pad_eq]
    exact List.take_left' (by simp)
  · have hdrop : (pad m).drop ((pad m).length - 8) = be64bytes (bitLength (BitVec.ofNat 64 m.length)) := by
      rw [pad_eq, ← List.append_assoc]
      exact List.drop_left' (by simp; omega)
    rw [hdrop, foldl_be64bytes, bitLength_ofNat_toNat]

/-- The digest of a message, with its blocks cut from the padded message (44_finalizer.md R176). -/
theorem digestOf_eq_ok (c : Cfg) (m : List Byte) :
    digestOf c m = .ok (finalize c (compressBlocks c (bitLength (BitVec.ofNat 64 m.length)) 0 c.iv
      ((List.range (numBlocks m.length)).map (blockAt (pad m)))) (bitLength (BitVec.ofNat 64 m.length))) := by
  simp only [digestOf, segment_pad]

/-- Settles O51: a padded message is whole blocks, so the segmenter does not fault. -/
theorem digestIsTotal : Obligations.DigestIsTotal := fun c m => ⟨_, digestOf_eq_ok c m⟩

/-! ### The Word Extractor -/

/-- Byte j of `be32`, most significant first, is its argument j (00_scope.md R10). -/
theorem be32_extract (b0 b1 b2 b3 : Byte) :
    (be32 b0 b1 b2 b3).extractLsb' 24 8 = b0 ∧ (be32 b0 b1 b2 b3).extractLsb' 16 8 = b1 ∧
      (be32 b0 b1 b2 b3).extractLsb' 8 8 = b2 ∧ (be32 b0 b1 b2 b3).extractLsb' 0 8 = b3 := by
  refine ⟨?_, ?_, ?_, ?_⟩ <;> ext j hj <;> interval_cases j <;> simp [be32]

/-- A word is `be32` of its four bytes. -/
theorem be32_of_bytes (w : Word) :
    be32 (w.extractLsb' 24 8) (w.extractLsb' 16 8) (w.extractLsb' 8 8) (w.extractLsb' 0 8) = w := by
  ext j hj
  interval_cases j <;> simp [be32]

/-- Byte j of word i is byte 4i+j of the block (R120). -/
theorem getElem_block_eq_extract (blk : Block) (i : Fin 16) (j : Fin 4) :
    blk[4 * i.val + j.val] = ((extract blk)[i]).extractLsb' (24 - 8 * j.val) 8 := by
  obtain ⟨h0, h1, h2, h3⟩ := be32_extract blk[4 * i.val] blk[4 * i.val + 1] blk[4 * i.val + 2] blk[4 * i.val + 3]
  have hword : (extract blk)[i] = be32 blk[4 * i.val] blk[4 * i.val + 1] blk[4 * i.val + 2] blk[4 * i.val + 3] := by
    simp [extract]
  rw [hword]
  fin_cases j
  · exact h0.symm
  · exact h1.symm
  · exact h2.symm
  · exact h3.symm

/-- The inverse of Extract: byte k is byte k mod 4 of word k / 4 (R121). -/
def joinBytes (w : Words) : Block :=
  Vector.ofFn fun k : Fin 64 => (w[k.val / 4]).extractLsb' (24 - 8 * (k.val % 4)) 8

theorem joinBytes_extract (blk : Block) : joinBytes (extract blk) = blk := by
  refine Vector.ext fun k hk => ?_
  have hbyte := getElem_block_eq_extract blk ⟨k / 4, by omega⟩ ⟨k % 4, Nat.mod_lt k (by decide)⟩
  simp only [Nat.div_add_mod] at hbyte
  simp [joinBytes, hbyte]

theorem extract_joinBytes (w : Words) : extract (joinBytes w) = w := by
  refine Vector.ext fun i hi => ?_
  have hbyte : ∀ j (hj : j < 4), (joinBytes w)[4 * i + j] = w[i].extractLsb' (24 - 8 * j) 8 := by
    intro j hj
    have hdiv : (4 * i + j) / 4 = i := by omega
    have hmod : (4 * i + j) % 4 = j := by omega
    simp [joinBytes, hdiv, hmod]
  have hbyte0 : (joinBytes w)[4 * i] = w[i].extractLsb' 24 8 := hbyte 0 (by decide)
  simp only [extract, Vector.getElem_ofFn]
  rw [hbyte0, hbyte 1 (by decide), hbyte 2 (by decide), hbyte 3 (by decide)]
  exact be32_of_bytes w[i]

/-- Settles O52: `joinBytes` is Extract's inverse on both sides. -/
theorem extractIsABijection : Obligations.ExtractIsABijection :=
  ⟨Function.bijective_iff_has_inverse.mpr ⟨joinBytes, joinBytes_extract, extract_joinBytes⟩, getElem_block_eq_extract⟩

/-! ### Stage A -/

/-- Settles O53: the three words are those that R131 names. -/
theorem stageAReadsThreeWords : Obligations.StageAReadsThreeWords := by
  intro c w w' i h0 h1 h9
  simp only [Fin.getElem_fin] at h0
  simp [stageA, wordAt, h0, h1, h9]

end Sys2Proof.Proofs
end

section
/-! SUPPORT. Proofs that Stage B (42_word_scheduler.md R134-R136) and the Finalizer (44_finalizer.md R170-R175) lose no
information: each is composed of steps that are bijections. -/

namespace Sys2Proof.Proofs

open Sys2Proof.Machine Sys2Proof.Laws Function

/-! ### Rotations -/

/-- Seen from the most significant bit, a rotation is a shift of the index mod 32. -/
theorem rotl32_getMsbD (x : Word) (r n : Nat) :
    (rotl32 x r).getMsbD n = (decide (n < 32) && x.getMsbD ((r + n) % 32)) := BitVec.getMsbD_rotateLeft

/-- Rotations add up. -/
theorem rotl32_rotl32 (x : Word) (a b : Nat) : rotl32 (rotl32 x a) b = rotl32 x (a + b) := by
  refine BitVec.eq_of_getMsbD_eq fun n hn => ?_
  rw [rotl32_getMsbD, rotl32_getMsbD, rotl32_getMsbD, show (a + (b + n) % 32) % 32 = (a + b + n) % 32 by omega]
  simp [Nat.mod_lt]

/-- A rotation by whole turns changes nothing. -/
theorem rotl32_whole_turns (x : Word) (k : Nat) : rotl32 x (32 * k) = x := by
  refine BitVec.eq_of_getMsbD_eq fun n hn => ?_
  rw [rotl32_getMsbD, show (32 * k + n) % 32 = n by omega]
  simp [hn]

theorem rotl32_xor (x y : Word) (r : Nat) : rotl32 (x ^^^ y) r = rotl32 x r ^^^ rotl32 y r := by
  refine BitVec.eq_of_getMsbD_eq fun n _ => ?_
  simp only [rotl32_getMsbD, BitVec.getMsbD_xor, Bool.and_xor_distrib_left]

theorem rotl32_bijective (r : Nat) : Bijective (rotl32 · r) := by
  have hturn : ∀ a b x, a + b = 32 * r → rotl32 (rotl32 x a) b = x := by
    intro a b x hab
    rw [rotl32_rotl32, hab, rotl32_whole_turns]
  exact bijective_iff_has_inverse.mpr
    ⟨(rotl32 · (31 * r)), fun x => hturn _ _ x (by omega), fun x => hturn _ _ x (by omega)⟩

/-! ### Words -/

theorem xor_right_bijective (y : Word) : Bijective (· ^^^ y) :=
  Involutive.bijective fun x => by rw [BitVec.xor_assoc, BitVec.xor_self, BitVec.xor_zero]

theorem xor_left_cancel (x y : Word) : x ^^^ (x ^^^ y) = y := by
  rw [← BitVec.xor_assoc, BitVec.xor_self, BitVec.zero_xor]

theorem xor_left_comm (x y z : Word) : x ^^^ (y ^^^ z) = y ^^^ (x ^^^ z) := by
  rw [← BitVec.xor_assoc, BitVec.xor_comm x y, BitVec.xor_assoc]

theorem add_right_bijective (y : Word) : Bijective (· + y) :=
  bijective_iff_has_inverse.mpr ⟨(· - y), fun x => BitVec.add_sub_cancel x y, fun x => BitVec.sub_add_cancel x y⟩

/-- An odd multiplier is invertible mod 2^32 (44_finalizer.md R175). -/
theorem mul_odd_bijective {m : Word} (hm : m.toNat % 2 = 1) : Bijective (· * m) := by
  have hcoprime : m.toNat.Coprime (2 ^ 32) := (Nat.odd_iff.mpr hm).coprime_two_right.pow_right 32
  obtain ⟨k, -, hk⟩ := Nat.exists_mul_mod_eq_one_of_coprime hcoprime (by decide)
  have hinv : m * BitVec.ofNat 32 k = 1 := by
    refine BitVec.eq_of_toNat_eq ?_
    rw [BitVec.toNat_mul, BitVec.toNat_ofNat, Nat.mul_mod_mod, hk]
    rfl
  refine bijective_iff_has_inverse.mpr ⟨(· * BitVec.ofNat 32 k), fun x => ?_, fun x => ?_⟩
  · show x * m * BitVec.ofNat 32 k = x
    rw [BitVec.mul_assoc, hinv, mul_one]
  · show x * BitVec.ofNat 32 k * m = x
    rw [BitVec.mul_assoc, BitVec.mul_comm (BitVec.ofNat 32 k), hinv, mul_one]

/-- A map is a bijection when its second iterate is. -/
theorem bijective_of_twice {α : Type} {f g : α → α} (h : Bijective g) (hfg : ∀ x, f (f x) = g x) : Bijective f := by
  obtain rfl : f ∘ f = g := funext hfg
  exact ⟨h.injective.of_comp, h.surjective.of_comp⟩

/-- An xor with the word shifted right, twice, is one with twice the shift: the cross terms cancel. -/
theorem xorShift_twice (x : Word) (k : Nat) :
    (x ^^^ x >>> k) ^^^ (x ^^^ x >>> k) >>> k = x ^^^ x >>> (2 * k) := by
  rw [BitVec.ushiftRight_xor_distrib, BitVec.xor_assoc, ← BitVec.xor_assoc (x >>> k), BitVec.xor_self, BitVec.zero_xor,
    ← BitVec.shiftRight_add, Nat.two_mul]

theorem xorShift_bijective_of_twice {k : Nat} (h : Bijective fun x : Word => x ^^^ x >>> (2 * k)) :
    Bijective fun x : Word => x ^^^ x >>> k :=
  bijective_of_twice h fun x => xorShift_twice x k

/-- A shift by the whole width leaves nothing to xor. -/
theorem xorShift_bijective_of_le {k : Nat} (h : 32 ≤ k) : Bijective fun x : Word => x ^^^ x >>> k := by
  have hid : (fun x : Word => x ^^^ x >>> k) = id := funext fun x => by
    rw [BitVec.ushiftRight_eq_zero h, BitVec.xor_zero, id]
  rw [hid]
  exact bijective_id

theorem xorShift16_bijective : Bijective fun x : Word => x ^^^ x >>> 16 :=
  xorShift_bijective_of_twice (xorShift_bijective_of_le (by decide))

theorem xorShift13_bijective : Bijective fun x : Word => x ^^^ x >>> 13 :=
  xorShift_bijective_of_twice (xorShift_bijective_of_twice (xorShift_bijective_of_le (by decide)))

/-! ### Stage B -/

/-- A word replaced by a bijective image that may depend on another word. -/
theorem set_bijective {i j : Fin 16} (hij : i ≠ j) {f : Word → Word → Word} (hf : ∀ y, Bijective (f · y)) :
    Bijective fun x : Words => x.set i (f x[i] x[j]) := by
  have hne : i.val ≠ j.val := Fin.val_ne_of_ne hij
  refine ⟨fun x y hxy => ?_, fun y => ?_⟩
  · have hword : ∀ k (hk : k < 16), (x.set i (f x[i] x[j]))[k] = (y.set i (f y[i] y[j]))[k] :=
      fun k hk => congrArg (·[k]) hxy
    have hj : x[j] = y[j] := by simpa [Vector.getElem_set, hne] using hword j j.isLt
    have hi : f x[i] x[j] = f y[i] y[j] := by simpa using hword i i.isLt
    rw [hj] at hi
    refine Vector.ext fun k hk => ?_
    by_cases hki : i.val = k
    · subst hki
      exact (hf y[j]).injective hi
    · simpa [Vector.getElem_set, hki] using hword k hk
  · obtain ⟨u, hu⟩ := (hf y[j]).surjective y[i]
    refine ⟨y.set i u, Vector.ext fun k hk => ?_⟩
    by_cases hki : i.val = k
    · subst hki
      simpa [Vector.getElem_set, hne] using hu
    · simp [Vector.getElem_set, hki]

theorem set_add_bijective {i j : Fin 16} (hij : i ≠ j) : Bijective fun x : Words => x.set i (x[i] + x[j]) :=
  set_bijective hij add_right_bijective

theorem set_xor_rotl_bijective {i j : Fin 16} (hij : i ≠ j) (r : Nat) :
    Bijective fun x : Words => x.set i (rotl32 (x[i] ^^^ x[j]) r) :=
  set_bijective (f := fun u v => rotl32 (u ^^^ v) r) hij fun y => (rotl32_bijective r).comp (xor_right_bijective y)

/-- The quarter round is eight such replacements (R134). -/
theorem quarterRound_bijective {a b c d : Fin 16} (h : a ≠ b ∧ d ≠ a ∧ c ≠ d ∧ b ≠ c) :
    Bijective fun x => quarterRound x a b c d :=
  have ⟨hab, hda, hcd, hbc⟩ := h
  (set_xor_rotl_bijective hbc 7).comp <| (set_add_bijective hcd).comp <| (set_xor_rotl_bijective hda 8).comp <|
    (set_add_bijective hab).comp <| (set_xor_rotl_bijective hbc 12).comp <| (set_add_bijective hcd).comp <|
    (set_xor_rotl_bijective hda 16).comp (set_add_bijective hab)

/-- Steps 1-4 of R135. -/
theorem columnRound_bijective : Bijective columnRound :=
  (quarterRound_bijective (by decide)).comp <| (quarterRound_bijective (by decide)).comp <|
    (quarterRound_bijective (by decide)).comp (quarterRound_bijective (by decide))

/-- Steps 5-8 of R135. -/
theorem diagonalRound_bijective : Bijective diagonalRound :=
  (quarterRound_bijective (by decide)).comp <| (quarterRound_bijective (by decide)).comp <|
    (quarterRound_bijective (by decide)).comp (quarterRound_bijective (by decide))

theorem mixPass_bijective : Bijective mixPass := diagonalRound_bijective.comp columnRound_bijective

/-- Settles O54: two passes, each a column round and a diagonal round of bijective quarter rounds. -/
theorem stageBIsABijection : Obligations.StageBIsABijection := mixPass_bijective.comp mixPass_bijective

/-! ### The Finalizer -/

/-- A bijection in each lane is one on the lanes. -/
theorem lanes_bijective {f0 f1 f2 f3 : Word → Word} (h0 : Bijective f0) (h1 : Bijective f1) (h2 : Bijective f2)
    (h3 : Bijective f3) : Bijective fun s : Lanes => (⟨f0 s.s0, f1 s.s1, f2 s.s2, f3 s.s3⟩ : Lanes) := by
  refine ⟨fun s t hst => ?_, fun t => ?_⟩
  · obtain ⟨e0, e1, e2, e3⟩ := Lanes.mk.inj hst
    cases s; cases t
    simp only [Lanes.mk.injEq]
    exact ⟨h0.injective e0, h1.injective e1, h2.injective e2, h3.injective e3⟩
  · obtain ⟨a0, e0⟩ := h0.surjective t.s0
    obtain ⟨a1, e1⟩ := h1.surjective t.s1
    obtain ⟨a2, e2⟩ := h2.surjective t.s2
    obtain ⟨a3, e3⟩ := h3.surjective t.s3
    exact ⟨⟨a0, a1, a2, a3⟩, by simp only [e0, e1, e2, e3]⟩

/-- Step 1 xors and adds constants (R172). -/
theorem fold_bijective (c : Cfg) (t : DWord) : Bijective fun s => fold c s t :=
  lanes_bijective (xor_right_bijective _) (xor_right_bijective _) (add_right_bijective _) (add_right_bijective _)

/-- `Aval` alternates xors with a shifted word and odd multipliers (R171). -/
theorem aval_bijective {c : Cfg} (h1 : c.m1.toNat % 2 = 1) (h2 : c.m2.toNat % 2 = 1) : Bijective (aval c) :=
  xorShift16_bijective.comp <| (mul_odd_bijective h2).comp <| xorShift13_bijective.comp <|
    (mul_odd_bijective h1).comp xorShift16_bijective

theorem avalLanes_bijective {c : Cfg} (h : Bijective (aval c)) : Bijective (avalLanes c) := lanes_bijective h h h h

/-- A word xored with four rotations of itself. -/
def xorRotations (a b c d : Nat) (x : Word) : Word := x ^^^ rotl32 x a ^^^ rotl32 x b ^^^ rotl32 x c ^^^ rotl32 x d

/-- Twice over, the cross terms cancel in pairs and each amount is doubled. -/
theorem xorRotations_twice (a b c d : Nat) (x : Word) :
    xorRotations a b c d (xorRotations a b c d x) = xorRotations (2 * a) (2 * b) (2 * c) (2 * d) x := by
  simp only [xorRotations, rotl32_xor, rotl32_rotl32, Nat.two_mul, Nat.add_comm b a, Nat.add_comm c a, Nat.add_comm d a,
    Nat.add_comm c b, Nat.add_comm d b, Nat.add_comm d c]
  simp only [BitVec.xor_assoc, xor_left_comm, xor_left_cancel]

theorem xorRotations_bijective_of_twice {a b c d : Nat} (h : Bijective (xorRotations (2 * a) (2 * b) (2 * c) (2 * d))) :
    Bijective (xorRotations a b c d) :=
  bijective_of_twice h (xorRotations_twice a b c d)

/-- By whole turns the four rotations cancel. -/
theorem xorRotations_whole_turns (a b c d : Nat) :
    xorRotations (32 * a) (32 * b) (32 * c) (32 * d) = id := by
  funext x
  simp only [xorRotations, rotl32_whole_turns, BitVec.xor_self, BitVec.zero_xor, id]

/-- The map of X that the cross-lane combine needs: its 32nd iterate rotates by whole turns (R175). -/
theorem xorRotations_bijective (a b c d : Nat) : Bijective (xorRotations a b c d) := by
  have hpow : ∀ n, 2 * (2 * (2 * (2 * (2 * n)))) = 32 * n := fun n => by omega
  refine xorRotations_bijective_of_twice <| xorRotations_bijective_of_twice <| xorRotations_bijective_of_twice <|
    xorRotations_bijective_of_twice <| xorRotations_bijective_of_twice ?_
  rw [hpow, hpow, hpow, hpow, xorRotations_whole_turns]
  exact bijective_id

/-- The lanes with a word xored into each, rotated by the lane's amount of R173. -/
def xorRotated (f : Lanes) (x : Word) : Lanes :=
  ⟨f.s0 ^^^ rotl32 x 3, f.s1 ^^^ rotl32 x 11, f.s2 ^^^ rotl32 x 17, f.s3 ^^^ rotl32 x 23⟩

/-- The same word xored in twice cancels. -/
theorem xorRotated_twice (f : Lanes) (x : Word) : xorRotated (xorRotated f x) x = f := by
  simp only [xorRotated, BitVec.xor_assoc, BitVec.xor_self, BitVec.xor_zero]

theorem lanesXor_xorRotated (f : Lanes) (x : Word) : lanesXor (xorRotated f x) =
    lanesXor f ^^^ rotl32 x 3 ^^^ rotl32 x 11 ^^^ rotl32 x 17 ^^^ rotl32 x 23 := by
  simp only [lanesXor, xorRotated]
  ac_rfl

/-- The cross-lane combine before `Aval`: the xor of the lanes goes into each lane (R173). -/
def xorLanes (f : Lanes) : Lanes := xorRotated f (lanesXor f)

/-- The xor of the combined lanes determines that of the lanes. -/
theorem lanesXor_xorLanes (f : Lanes) : lanesXor (xorLanes f) = xorRotations 3 11 17 23 (lanesXor f) :=
  lanesXor_xorRotated f (lanesXor f)

theorem xorLanes_bijective : Bijective xorLanes := by
  refine ⟨fun f g hfg => ?_, fun g => ?_⟩
  · have hx : lanesXor f = lanesXor g :=
      (xorRotations_bijective 3 11 17 23).injective (by rw [← lanesXor_xorLanes, ← lanesXor_xorLanes, hfg])
    calc f = xorRotated (xorLanes f) (lanesXor f) := (xorRotated_twice f _).symm
      _ = xorRotated (xorLanes g) (lanesXor g) := by rw [hfg, hx]
      _ = g := xorRotated_twice g _
  · obtain ⟨x, hx⟩ := (xorRotations_bijective 3 11 17 23).surjective (lanesXor g)
    have hlanes : lanesXor (xorRotated g x) = x := by
      rw [lanesXor_xorRotated, ← hx, xorRotations]
      simp only [BitVec.xor_assoc, xor_left_comm, xor_left_cancel, BitVec.xor_self, BitVec.xor_zero]
    exact ⟨xorRotated g x, by rw [xorLanes, hlanes, xorRotated_twice]⟩

theorem crossLane_bijective {c : Cfg} (h : Bijective (aval c)) : Bijective (crossLane c) :=
  have hcomp : crossLane c = avalLanes c ∘ xorLanes := funext fun _ => rfl
  hcomp ▸ (avalLanes_bijective h).comp xorLanes_bijective

/-- A valid CFG has odd multipliers (00_scope.md R6). -/
theorem multipliers_odd {c : Cfg} (h : c.ok = true) : c.m1.toNat % 2 = 1 ∧ c.m2.toNat % 2 = 1 := by
  simp only [Cfg.ok, Cfg.constantsOdd, Bool.and_eq_true, List.all_cons, beq_iff_eq] at h
  obtain ⟨-, -, -, hm1, hm2, -⟩ := h
  exact ⟨hm1, hm2⟩

/-- Settles O55: Fold, `Aval` in each lane and the cross-lane combine are bijections when `Aval` is. -/
theorem finalizeIsABijection : Obligations.FinalizeIsABijection := by
  intro c t hc
  obtain ⟨h1, h2⟩ := multipliers_odd hc
  have haval := aval_bijective h1 h2
  exact (crossLane_bijective haval).comp <| (avalLanes_bijective haval).comp (fold_bijective c t)

end Sys2Proof.Proofs
end

section
/-! SUPPORT. Proofs that the command machine computes the reference digest (45_commands.md R195-R203; 44_finalizer.md
R176; 70_reset_and_hazards.md R261, R262): the block buffer folds a byte stream block by block, FINAL's stream is the
padded message, and a launch of HASH runs its commands one after the other. -/

namespace Sys2Proof.Proofs

open Sys2Proof.Machine Sys2Proof.Laws

/-! ### The block buffer folds a byte stream -/

/-- The bytes of p have gone through the block buffer since START: BCNT and BIDX count them, S has the full blocks
folded in, and B holds the rest (10_state.md R26, R29; 43_block_compressor.md R159). -/
def Folded (p : List Byte) (s : State) : Prop :=
  s.bcnt.toNat = p.length % 64 ∧ s.bidx = BitVec.ofNat 32 (p.length / 64) ∧
    s.lanes = compressBlocks s.cfg s.tbits 0 s.cfg.iv ((List.range (p.length / 64)).map (blockAt p)) ∧
    ∀ k : Fin 64, k.val < p.length % 64 → some s.buf[k] = p[64 * (p.length / 64) + k.val]?

theorem absorbed_iff (m : List Byte) (s : State) : Absorbed m s ↔
    s.phase = .absorb ∧ s.tbits = bitLength s.len ∧ s.abscnt.toNat = m.length ∧ m.length ≤ s.len.toNat ∧
      Folded m s := Iff.rfl

theorem compressBlocks_append (c : Cfg) (t : DWord) (k : Nat) (s : Lanes) (xs ys : List Block) :
    compressBlocks c t k s (xs ++ ys) = compressBlocks c t (k + xs.length) (compressBlocks c t k s xs) ys := by
  induction xs generalizing k s with
  | nil => rfl
  | cons x xs ih =>
    rw [List.cons_append, compressBlocks, ih, List.length_cons, compressBlocks, Nat.add_assoc, Nat.add_comm 1]

/-- Bytes appended to a buffer do not change the blocks it already fills. -/
theorem map_blockAt_append {p : List Byte} {n : Nat} (h : 64 * n ≤ p.length) (x : List Byte) :
    (List.range n).map (blockAt (p ++ x)) = (List.range n).map (blockAt p) := by
  refine List.map_congr_left fun k hk => ?_
  rw [List.mem_range] at hk
  unfold blockAt
  congr 1
  funext j
  exact List.getD_append _ _ _ _ (by omega)

/-- After a byte is written, B holds the bytes of the stream's last block up to it (45_commands.md R199). -/
theorem folded_buf_appendByte {p : List Byte} {s : State} (h : Folded p s) (b : Byte) {k : Nat} (hk : k < 64)
    (hle : k ≤ p.length % 64) : some (appendByte b s).buf[k] = (p ++ [b])[64 * (p.length / 64) + k]? := by
  obtain ⟨hbcnt, -, -, hbuf⟩ := h
  rw [appendByte_buf b s k hk]
  split_ifs with hlast
  · rw [show 64 * (p.length / 64) + k = p.length by omega, List.getElem?_concat_length]
  · rw [List.getElem?_append_left (by omega)]
    exact hbuf ⟨k, hk⟩ (by dsimp only; omega)

/-- The byte that fills the buffer compresses B (45_commands.md R200). -/
theorem appendByte_full_lanes (b : Byte) {s : State} (h : s.bcnt.toNat = 63) :
    (appendByte b s).lanes = blockStep s.cfg s.tbits s.lanes s.bidx (appendByte b s).buf := by
  rw [appendByte_full b s h]
  rfl

/-- Full blocks are folded into S as they fill. -/
theorem folded_lanes_appendByte {p : List Byte} {s : State} (h : Folded p s) (b : Byte) :
    (appendByte b s).lanes =
      compressBlocks s.cfg s.tbits 0 s.cfg.iv ((List.range ((p.length + 1) / 64)).map (blockAt (p ++ [b]))) := by
  have hheld := fun k hk => folded_buf_appendByte h b (k := k) hk
  obtain ⟨hbcnt, hbidx, hlanes, -⟩ := h
  obtain ⟨hroom, happend⟩ | ⟨hfull, -⟩ := appendByte_cases b s
  · rw [happend, show (p.length + 1) / 64 = p.length / 64 by omega, map_blockAt_append (by omega)]
    exact hlanes
  · have hblock : (appendByte b s).buf = blockAt (p ++ [b]) (p.length / 64) := by
      refine Vector.ext fun k hk => ?_
      simp only [blockAt, Vector.getElem_ofFn, List.getD_eq_getElem?_getD, ← hheld k hk (by omega), Option.getD_some]
    rw [appendByte_full_lanes b hfull, hblock, show (p.length + 1) / 64 = p.length / 64 + 1 by omega, List.range_succ,
      List.map_append, compressBlocks_append, map_blockAt_append (by omega), ← hlanes, hbidx]
    simp [compressBlocks]

/-- A byte through the buffer extends the stream (45_commands.md R199). -/
theorem folded_appendByte {p : List Byte} {s : State} (h : Folded p s) (b : Byte) :
    Folded (p ++ [b]) (appendByte b s) := by
  have hlanes := folded_lanes_appendByte h b
  have hheld := fun k hk => folded_buf_appendByte h b (k := k) hk
  obtain ⟨hbcnt, hbidx, -, -⟩ := h
  unfold Folded
  rw [List.length_append, List.length_singleton]
  refine ⟨?_, ?_, by simpa using hlanes, fun k hk => ?_⟩
  · rw [appendByte_bcnt]
    omega
  · rw [appendByte_bidx, hbidx, ← BitVec.ofNat_add]
    exact congrArg _ (by omega)
  · rw [show (p.length + 1) / 64 = p.length / 64 by omega]
    exact hheld k k.isLt (by omega)

theorem folded_appendBytes {p : List Byte} {s : State} (h : Folded p s) (bs : List Byte) :
    Folded (p ++ bs) (appendBytes bs s) := by
  induction bs generalizing p s with
  | nil => simpa using h
  | cons b bs ih => simpa using ih (folded_appendByte h b)

/-! ### START and the absorb commands -/

theorem absorbed_beginMessage (s : State) : Absorbed [] (beginMessage s) :=
  ⟨rfl, rfl, rfl, Nat.zero_le _, rfl, by simp, by simp [compressBlocks], fun _ hk => absurd hk (Nat.not_lt_zero _)⟩

/-- Bytes with room under LEN extend the message (45_commands.md R195). -/
theorem absorbed_absorbBytes {m bs : List Byte} {s : State} (h : Absorbed m s)
    (hroom : m.length + bs.length ≤ s.len.toNat) : Absorbed (m ++ bs) (absorbBytes bs s) := by
  obtain ⟨hphase, htbits, habscnt, -, hfolded⟩ := (absorbed_iff m s).mp h
  have hfold : Folded (m ++ bs) (absorbBytes bs s) := by
    rw [absorbBytes_eq]
    exact folded_appendBytes hfolded bs
  refine (absorbed_iff _ _).mpr ⟨by simpa using hphase, by simpa using htbits, ?_, by simpa using hroom, hfold⟩
  rw [absorbBytes_abscnt_toNat (by omega), List.length_append, habscnt]

/-- Settles O56: START by its fields, ABSn with room by the absorb loop. -/
theorem absorbExtendsTheMessage : Obligations.AbsorbExtendsTheMessage := by
  refine ⟨fun s hp => ⟨_, exec_start hp, absorbed_beginMessage s⟩, fun m s i h hi hroom => ?_⟩
  obtain ⟨hphase, -, habscnt, -⟩ := (absorbed_iff m s).mp h
  exact ⟨_, exec_absorb hi hphase (by omega), absorbed_absorbBytes h hroom⟩

/-! ### FINAL -/

/-- T is the bit length of an absorbed message of the declared length (10_state.md R30). -/
theorem bitLength_of_absorbed {m : List Byte} {s : State} (h : Absorbed m s) (hlen : m.length = s.len.toNat) :
    bitLength (BitVec.ofNat 64 m.length) = s.tbits := by
  obtain ⟨-, htbits, -⟩ := (absorbed_iff m s).mp h
  rw [htbits, hlen, BitVec.ofNat_toNat, BitVec.setWidth_eq]

/-- FINAL's framing suffix makes the absorbed message of the declared length the padded message (R100, R201). -/
theorem folded_pad {m : List Byte} {s : State} (h : Absorbed m s) (hlen : m.length = s.len.toNat) :
    Folded (pad m) (appendBytes (framing (padZeros s.bcnt.toNat) s.tbits) s) := by
  obtain ⟨-, -, -, -, hfolded⟩ := (absorbed_iff m s).mp h
  have hzeros : padZeros s.bcnt.toNat = padZeros m.length := by
    rw [hfolded.1, padZeros, Nat.mod_mod, padZeros]
  rw [hzeros, pad, bitLength_of_absorbed h hlen]
  exact folded_appendBytes hfolded _

/-- FINAL of an absorbed message of the declared length writes its digest and counts its blocks (R176, R201). -/
theorem digestOf_finishMessage {m : List Byte} {s : State} (h : Absorbed m s) (hlen : m.length = s.len.toNat) :
    digestOf s.cfg m = .ok (finishMessage s).digest ∧
      (finishMessage s).bidx = BitVec.ofNat 32 (numBlocks m.length) := by
  have hblocks : (pad m).length / 64 = numBlocks m.length := by
    rw [pad_length, Nat.mul_div_cancel_left _ (by decide)]
  obtain ⟨-, hbidx, hlanes, -⟩ := folded_pad h hlen
  rw [hblocks] at hbidx hlanes
  rw [appendBytes_cfg, appendBytes_tbits] at hlanes
  refine ⟨?_, hbidx⟩
  rw [digestOf_eq_ok, bitLength_of_absorbed h hlen, finishMessage_digest, ← hlanes]
  rfl

/-- Settles O57: FINAL finishes the message, since ABSCNT has reached LEN. -/
theorem finalOfAbsorbedIsTheDigest : Obligations.FinalOfAbsorbedIsTheDigest := by
  intro m s h hlen
  obtain ⟨hphase, -, habscnt, -⟩ := (absorbed_iff m s).mp h
  obtain ⟨hdigest, hbidx⟩ := digestOf_finishMessage h hlen
  exact ⟨finishMessage s, exec_final_finishes hphase (by omega), hdigest, rfl, by simp, by simp, hbidx⟩

/-! ### The command sequence of a message -/

theorem execAll_append {xs ys : List Instr} {s t : State} (h : execAll xs s = .next t) :
    execAll (xs ++ ys) s = execAll ys t := by
  induction xs generalizing s with
  | nil => cases h; rfl
  | cons i xs ih =>
    obtain ⟨u, hu⟩ := exec_completes i s
    rw [execAll_cons hu] at h
    rw [List.cons_append, execAll_cons hu, ih h]

theorem absorbBytes_append (xs ys : List Byte) (s : State) :
    absorbBytes (xs ++ ys) s = absorbBytes ys (absorbBytes xs s) := by
  induction xs generalizing s with
  | nil => rfl
  | cons b bs ih => exact ih _

/-- Absorb commands with room for all their bytes are one absorb loop over them. -/
theorem execAll_absorb {abs : List Instr} {s : State} (habs : ∀ i ∈ abs, isAbsorb i = true) (hp : s.phase = .absorb)
    (hroom : s.abscnt.toNat + (abs.flatMap messageBytes).length ≤ s.len.toNat) :
    execAll abs s = .next (absorbBytes (abs.flatMap messageBytes) s) := by
  induction abs generalizing s with
  | nil => rfl
  | cons i abs ih =>
    rw [List.flatMap_cons, List.length_append] at hroom
    obtain ⟨hi, habs⟩ := List.forall_mem_cons.mp habs
    have hfirst : s.abscnt.toNat + (messageBytes i).length ≤ s.len.toNat := by omega
    rw [execAll_cons (exec_absorb hi hp hfirst), List.flatMap_cons, absorbBytes_append]
    refine ih habs (by simpa using hp) ?_
    rw [absorbBytes_abscnt_toNat hfirst, absorbBytes_len]
    omega

/-- The state in which the bytes of m have been absorbed under their own length. -/
def absorbedState (m : List Byte) (s : State) : State :=
  absorbBytes m (beginMessage { s with len := BitVec.ofNat 64 m.length })

theorem toNat_ofNat_length {m : List Byte} (h : m.length < 2 ^ 64) : (BitVec.ofNat 64 m.length).toNat = m.length := by
  rw [BitVec.toNat_ofNat, Nat.mod_eq_of_lt h]

theorem absorbed_absorbedState {m : List Byte} (s : State) (hm : m.length < 2 ^ 64) :
    Absorbed m (absorbedState m s) :=
  absorbed_absorbBytes (absorbed_beginMessage _) (by simp [toNat_ofNat_length hm])

@[simp] theorem absorbedState_len (m : List Byte) (s : State) : (absorbedState m s).len = BitVec.ofNat 64 m.length := by
  simp [absorbedState]

/-- LEN64, START, absorb commands that carry m, and FINAL finish the message m (45_commands.md R203). -/
theorem execAll_message {m : List Byte} {abs : List Instr} {s : State} (hp : s.phase = .idle ∨ s.phase = .done)
    (hm : m.length < 2 ^ 64) (habs : ∀ i ∈ abs, isAbsorb i = true) (hbytes : abs.flatMap messageBytes = m) :
    execAll (len64 (BitVec.ofNat 64 m.length) ++ .start :: abs ++ [.final]) s =
      .next (finishMessage (absorbedState m s)) := by
  obtain ⟨hphase, -, habscnt, -⟩ := (absorbed_iff _ _).mp (absorbed_absorbedState s hm)
  have hlen : (absorbedState m s).len.toNat ≤ (absorbedState m s).abscnt.toNat := by
    rw [habscnt, absorbedState_len, toNat_ofNat_length hm]
  have hroom : (beginMessage { s with len := BitVec.ofNat 64 m.length }).abscnt.toNat +
      (abs.flatMap messageBytes).length ≤ (beginMessage { s with len := BitVec.ofNat 64 m.length }).len.toNat := by
    simp [hbytes, toNat_ofNat_length hm]
  have hstart : exec .start { s with len := BitVec.ofNat 64 m.length } = .next (beginMessage _) := exec_start hp
  rw [List.append_assoc, execAll_append (execAll_len64 _ hp), List.cons_append, execAll_cons hstart,
    execAll_append (execAll_absorb habs rfl hroom), hbytes]
  exact execAll_cons (exec_final_finishes hphase hlen)

/-- What the finished message leaves in D is its digest under the chip's CFG (R176). -/
theorem digestOf_finished {m : List Byte} (s : State) (hm : m.length < 2 ^ 64) :
    digestOf s.cfg m = .ok (finishMessage (absorbedState m s)).digest ∧
      (finishMessage (absorbedState m s)).bidx = BitVec.ofNat 32 (numBlocks m.length) := by
  have h := digestOf_finishMessage (absorbed_absorbedState s hm) (by rw [absorbedState_len, toNat_ofNat_length hm])
  rwa [show (absorbedState m s).cfg = s.cfg by simp [absorbedState]] at h

/-- Settles O58: the commands finish the message (`execAll_message`), and no error register is written on the way. -/
theorem commandMachineComputesTheDigest : Obligations.CommandMachineComputesTheDigest := by
  intro m abs s hp hm habs hbytes
  obtain ⟨hdigest, hbidx⟩ := digestOf_finished s hm
  obtain ⟨-, -, habscnt, -⟩ := (absorbed_iff _ _).mp (absorbed_absorbedState s hm)
  refine ⟨_, execAll_message hp hm habs hbytes, hdigest, rfl, by rwa [finishMessage_abscnt], finishMessage_bcnt _,
    hbidx, ?_, ?_, ?_⟩ <;> simp [absorbedState]

/-! ### No command reads the agenda -/

theorem appendByte_with_agenda (b : Byte) (a : List Event) (s : State) :
    appendByte b { s with agenda := a } = { appendByte b s with agenda := a } := by
  obtain ⟨h, e⟩ | ⟨h, e⟩ := appendByte_cases b s <;> rw [e]
  · exact appendByte_room b { s with agenda := a } h
  · exact appendByte_full b { s with agenda := a } h

theorem appendBytes_with_agenda (bs : List Byte) (a : List Event) (s : State) :
    appendBytes bs { s with agenda := a } = { appendBytes bs s with agenda := a } := by
  induction bs generalizing s with
  | nil => rfl
  | cons b bs ih => rw [appendBytes_cons, appendBytes_cons, appendByte_with_agenda, ih]

theorem absorbOrOverrun_with_agenda (i : Instr) (bs : List Byte) (a : List Event) (s : State) :
    absorbOrOverrun i bs { s with agenda := a } = { absorbOrOverrun i bs s with agenda := a } := by
  unfold absorbOrOverrun
  dsimp only
  split_ifs
  · rfl
  · rw [absorbBytes_eq, absorbBytes_eq, appendBytes_with_agenda]

theorem finishOrUnderrun_with_agenda (a : List Event) (s : State) :
    finishOrUnderrun { s with agenda := a } = { finishOrUnderrun s with agenda := a } := by
  unfold finishOrUnderrun
  dsimp only
  split_ifs
  · rfl
  · simp only [finishMessage, appendBytes_with_agenda]

theorem effectOf_with_agenda (i : Instr) (a : List Event) (s : State) :
    effectOf i { s with agenda := a } = { effectOf i s with agenda := a } := by
  cases i with
  | nop | start | setlen | clr => rfl
  | abs1 | abs2 | abs3 => exact absorbOrOverrun_with_agenda _ _ a s
  | final => exact finishOrUnderrun_with_agenda a s

theorem exec_with_agenda {i : Instr} {s t : State} (h : exec i s = .next t) (a : List Event) :
    exec i { s with agenda := a } = .next { t with agenda := a } := by
  obtain ⟨hl, he⟩ | ⟨hp, hi, he⟩ | ⟨hp, hl, -, he⟩ := exec_cases i s
  all_goals cases he.symm.trans h
  · rw [exec_of_legal (s := { s with agenda := a }) hl, effectOf_with_agenda]
  · exact exec_in_error hp hi
  · exact exec_of_not_legal hp hl

/-! ### The run of a launch -/

/-- A run of the machine, over the model's own state. -/
def runFor (n : Nat) (s : State) : Host.Outcome State Fault Refusal := core.run n s

theorem runFor_succ {s t : State} (h : step s = .next t) (n : Nat) : runFor (n + 1) s = runFor n t := by
  have hcore : core.step s = .next t := h
  simp only [runFor, Host.Core.run, hcore]
  rfl

/-- A command's word is presented, then accepted and executed: two steps (70_reset_and_hazards.md R255). -/
theorem runFor_command {i : Instr} {s t : State} {rest : List Event} (hc : s.cfg.ok = true) (hp : s.port = none)
    (ha : s.agenda = .present (encode i) :: .accept :: rest) (h : exec i { s with agenda := rest } = .next t)
    (n : Nat) : runFor (n + 2) s = runFor n t := by
  have hpresent : step s = .next { s with agenda := .accept :: rest, port := some (encode i) } := by
    rw [step_of_event hc ha]
    simp only [handleEvent, hp]
  have hfree : ({ s with agenda := rest, port := none } : State) = { s with agenda := rest } := by rw [← hp]
  have haccept : step { s with agenda := .accept :: rest, port := some (encode i) } = .next t := by
    rw [step_of_event (s := { s with agenda := .accept :: rest, port := some (encode i) }) hc rfl, handleEvent,
      acceptWord_of_held rfl, stepWord_of_decode (decode_encode i), ← h, ← hfree]
  rw [runFor_succ hpresent, runFor_succ haccept]

/-- The events of a launch of commands (R261). -/
def commandEvents (is : List Instr) : List Event :=
  (is.map fun i => Interaction.command (encode i)).flatMap Interaction.events

theorem commandEvents_cons (i : Instr) (is : List Instr) :
    commandEvents (i :: is) = .present (encode i) :: .accept :: commandEvents is := rfl

/-- A launch of commands runs them in order, and leaves what follows them on the agenda (R261). -/
theorem runFor_commands {is : List Instr} {s t : State} {rest : List Event} (hc : s.cfg.ok = true) (hp : s.port = none)
    (ha : s.agenda = commandEvents is ++ rest) (h : execAll is { s with agenda := rest } = .next t) (n : Nat) :
    runFor (n + (commandEvents is).length) s = runFor n t := by
  induction is generalizing s with
  | nil =>
    obtain rfl : s.agenda = rest := ha
    cases h
    rfl
  | cons i is ih =>
    obtain ⟨u, hu⟩ := exec_completes i { s with agenda := rest }
    rw [execAll_cons hu] at h
    obtain ⟨hcfg, hport, hagenda, -⟩ := executes_keeps_host_side (executes_of_exec hu)
    obtain rfl : u.agenda = rest := hagenda
    rw [commandEvents_cons, List.length_cons, List.length_cons]
    exact (runFor_command hc hp ha (exec_with_agenda hu (commandEvents is ++ u.agenda)) _).trans
      (ih (s := { u with agenda := commandEvents is ++ u.agenda }) (by rw [hcfg]; exact hc) (hport.trans hp) rfl h)

/-- Reads at the end of the agenda leave the record of what they returned (10_state.md R35). -/
theorem runFor_reads {is : List (BitVec 8)} {s : State} (hc : s.cfg.ok = true) (ha : s.agenda = is.map .read) :
    runFor is.length s = .next { s with agenda := [], reads := s.reads ++ is.map (readPort · s) } := by
  induction is generalizing s with
  | nil =>
    have hempty : s.agenda = [] := ha
    have hkeep : ({ s with agenda := [], reads := s.reads ++ [] } : State) = s := by rw [List.append_nil, ← hempty]
    exact congrArg _ hkeep.symm
  | cons i is ih =>
    refine (runFor_succ (step_of_event hc ha) _).trans ((ih (s := { s with
      agenda := is.map .read, reads := s.reads ++ [readPort i s] }) hc rfl).trans ?_)
    rw [List.append_assoc]
    rfl

/-- STATUS reads 6 in DONE without an error: DVALID and PHASE 2 (10_state.md R32). -/
theorem statusWord_done {s : State} (hp : s.phase = .done) (he : s.errcode = 0) (hd : s.drop = false) :
    statusWord s = 6 := by
  simp only [statusWord, errFlag, dvalid, hp, he, hd]
  decide

/-- The events of a launch of commands and then reads (R261). -/
theorem flatMap_events (is : List Instr) (rd : List (BitVec 8)) :
    (is.map (fun i => Interaction.command (encode i)) ++ rd.map Interaction.read).flatMap Interaction.events =
      commandEvents is ++ rd.map .read := by
  have hreads : (rd.map Interaction.read).flatMap Interaction.events = rd.map Event.read := by
    rw [List.flatMap_map, List.map_eq_flatMap]
    rfl
  rw [List.flatMap_append, hreads, commandEvents]

theorem execAll_keeps_host_side {is : List Instr} {s t : State} (h : execAll is s = .next t) :
    t.cfg = s.cfg ∧ t.agenda = s.agenda ∧ t.reads = s.reads := by
  induction is generalizing s with
  | nil => cases h; exact ⟨rfl, rfl, rfl⟩
  | cons i is ih =>
    obtain ⟨u, hu⟩ := exec_completes i s
    obtain ⟨hcfg, -, hagenda, hreads⟩ := executes_keeps_host_side (executes_of_exec hu)
    rw [execAll_cons hu] at h
    rw [← hcfg, ← hagenda, ← hreads]
    exact ih h

/-- A launch of commands and then reads ends in the state the commands lead to, with the values of the reads (R261). -/
theorem runLaunch_commands_reads {is : List Instr} {rd : List (BitVec 8)} {s t : State} (hc : s.cfg.ok = true)
    (h : execAll is { s with port := none, agenda := rd.map .read, reads := [] } = .next t) :
    runLaunch s (is.map (fun i => Interaction.command (encode i)) ++ rd.map Interaction.read) =
      .next { t with agenda := [], reads := rd.map (readPort · t) } := by
  obtain ⟨hcfg, hagenda, hreads⟩ := execAll_keeps_host_side h
  have hrun := runFor_reads (s := t) (is := rd) (by rw [hcfg]; exact hc) hagenda
  rw [hreads, List.nil_append] at hrun
  rw [runLaunch, launch, flatMap_events, List.length_append, List.length_map, Nat.add_comm, ← hrun]
  exact runFor_commands (s := { s with port := none, agenda := commandEvents is ++ rd.map .read, reads := [] }) hc
    rfl rfl h rd.length

/-- Settles O59: the commands of HASH leave the digest in D without an error (O58), and the reads then find it. -/
theorem cleanLaunchOfHashReturnsTheDigest : Obligations.CleanLaunchOfHashReturnsTheDigest := by
  rintro m s hc ⟨hp, herrcode, hdrop⟩ hm
  obtain ⟨t, hexec, hdigest, hphase, -, -, -, herr, -, hdropped⟩ := commandMachineComputesTheDigest m (absorbAll m)
    { s with port := none, agenda := [1, 9, 10, 11, 12].map .read, reads := [] } hp hm isAbsorb_of_mem_absorbAll
    (flatMap_messageBytes_absorbAll m)
  have hstatus : statusWord t = 6 := statusWord_done hphase (herr.trans herrcode) (hdropped.trans hdrop)
  have hlaunch := runLaunch_commands_reads (is := hashOf m) (rd := [1, 9, 10, 11, 12]) hc hexec
  refine ⟨_, t.digest, hlaunch, hdigest, ?_, ?_, hdropped.trans hdrop⟩
  · show [statusWord t, t.digest.s0, t.digest.s1, t.digest.s2, t.digest.s3] = _
    rw [hstatus]
  · show (t.phase == .error) = false
    rw [hphase]
    rfl

end Sys2Proof.Proofs
end
